-- ==== Sys2Proof/Word.lean ====
section
/-! DEFINITION. The word types of the core (spec/00_scope.md R4, R5): every value is an unsigned bit vector of a stated
width; a register or key number is an index below 16. -/

namespace Sys2Proof

/-- An 8-bit value: a general register, a timer, a memory location (R4). -/
abbrev Byte := BitVec 8

/-- A 16-bit value: `I`, `pc`, a call-stack slot, the instruction word (R4). -/
abbrev Word := BitVec 16

/-- A 4-bit field of an instruction word (R51). -/
abbrev Nibble := BitVec 4

/-- The 12-bit immediate `nnn` (R51). -/
abbrev Addr := BitVec 12

/-- The index of a general register, 0 to 15 (R11: "register indices are always in [0,15]"). -/
abbrev Reg := Fin 16

/-- The number of a key, 0 to 15 (R19). -/
abbrev Key := Fin 16

end Sys2Proof
end

