-- ==== Sys2Proof/Syntax.lean ====
section
/-! DEFINITION. The instructions: one constructor per row of spec/opcode_table.json, in the table's order
(spec/30_encoding.md R61, R65). An operand is a field the pattern names (R51, R52). Bits the decoder ignores (R59) are no
operands of a defined instruction; the four no-op rows keep all their bits, so that their words can be written back. -/

namespace Sys2Proof

inductive Instr where
  /-- `00E0` (R120). -/
  | cls
  /-- `00EE` (R80). -/
  | ret
  /-- `0nnn` whose low nibble is neither 0 nor E: the family-0 no-op (R73). -/
  | sys (nnn : Addr)
  /-- `1nnn` (R81). -/
  | jp (nnn : Addr)
  /-- `2nnn` (R82). -/
  | call (nnn : Addr)
  /-- `3xkk` (R83). -/
  | seImm (x : Reg) (kk : Byte)
  /-- `4xkk` (R84). -/
  | sneImm (x : Reg) (kk : Byte)
  /-- `5xy0` (R85). -/
  | seReg (x y : Reg)
  /-- `6xkk` (R90). -/
  | ldImm (x : Reg) (kk : Byte)
  /-- `7xkk` (R91). -/
  | addImm (x : Reg) (kk : Byte)
  /-- `8xy0` (R92). -/
  | ldReg (x y : Reg)
  /-- `8xy1` (R93). -/
  | orReg (x y : Reg)
  /-- `8xy2` (R94). -/
  | andReg (x y : Reg)
  /-- `8xy3` (R95). -/
  | xorReg (x y : Reg)
  /-- `8xy4` (R96). -/
  | addReg (x y : Reg)
  /-- `8xy5` (R97). -/
  | subReg (x y : Reg)
  /-- `8xy6` (R98); `y` is decoded and not used (R59). -/
  | shr (x y : Reg)
  /-- `8xy7` (R99). -/
  | subnReg (x y : Reg)
  /-- `8xyE` (R100); `y` is decoded and not used (R59). -/
  | shl (x y : Reg)
  /-- `8xy?` with `n` one of 8, 9, A, B, C, D, F: a no-op (R74). -/
  | undef8 (x y : Reg) (n : Nibble)
  /-- `9xy0` (R86). -/
  | sneReg (x y : Reg)
  /-- `Annn` (R110). -/
  | ldI (nnn : Addr)
  /-- `Bnnn` (R87). -/
  | jpV0 (nnn : Addr)
  /-- `Cxkk` (R101). -/
  | rnd (x : Reg) (kk : Byte)
  /-- `Dxyn` (R121). -/
  | drw (x y : Reg) (n : Nibble)
  /-- `Ex9E` (R130). -/
  | skp (x : Reg)
  /-- `ExA1` (R131). -/
  | sknp (x : Reg)
  /-- `Ex??` whose low nibble is neither E nor 1: a no-op (R75). -/
  | undefE (x : Reg) (kk : Byte)
  /-- `Fx07` (R133). -/
  | ldVxDt (x : Reg)
  /-- `Fx0A` (R132). -/
  | ldVxK (x : Reg)
  /-- `Fx15` (R134). -/
  | ldDtVx (x : Reg)
  /-- `Fx18` (R135). -/
  | ldStVx (x : Reg)
  /-- `Fx1E` (R111). -/
  | addI (x : Reg)
  /-- `Fx29` (R112). -/
  | ldF (x : Reg)
  /-- `Fx33` (R113). -/
  | ldB (x : Reg)
  /-- `Fx55` (R114). -/
  | storeRegs (x : Reg)
  /-- `Fx65` (R115). -/
  | loadRegs (x : Reg)
  /-- `Fx??` with `kk` none of the nine sub-opcodes of R58: a no-op (R76). -/
  | undefF (x : Reg) (kk : Byte)
deriving DecidableEq, Repr

end Sys2Proof
end

