-- ==== Sys2Proof/WellFormed.lean ====
section
/-! DEFINITION. Which terms of `Instr` are instructions of the core. Operand widths hold by type; what is left to check is
that a no-op row does not claim a word of a defined instruction (spec/30_encoding.md R55 to R58, R60). -/

namespace Sys2Proof

/-- The low nibbles of family 8 that select a defined instruction (R56). -/
def family8Defined : List Nibble := [0, 1, 2, 3, 4, 5, 6, 7, 0xE]

/-- The low bytes of family F that select a defined instruction (R58). -/
def familyFDefined : List Byte := [0x07, 0x0A, 0x15, 0x18, 0x1E, 0x29, 0x33, 0x55, 0x65]

/-- A term stands for words of its own row: the undefined encodings are exactly those R60 lists. -/
def Instr.wf : Instr → Bool
  | .sys nnn => nnn.setWidth 4 != 0#4 && nnn.setWidth 4 != 0xE#4
  | .undef8 _ _ n => !family8Defined.contains n
  | .undefE _ kk => kk.setWidth 4 != 0xE#4 && kk.setWidth 4 != 0x1#4
  | .undefF _ kk => !familyFDefined.contains kk
  | .cls | .ret | .jp _ | .call _ | .seImm _ _ | .sneImm _ _ | .seReg _ _ | .ldImm _ _ | .addImm _ _ => true
  | .ldReg _ _ | .orReg _ _ | .andReg _ _ | .xorReg _ _ | .addReg _ _ | .subReg _ _ | .shr _ _ | .subnReg _ _ => true
  | .shl _ _ | .sneReg _ _ | .ldI _ | .jpV0 _ | .rnd _ _ | .drw _ _ _ | .skp _ | .sknp _ => true
  | .ldVxDt _ | .ldVxK _ | .ldDtVx _ | .ldStVx _ | .addI _ | .ldF _ | .ldB _ | .storeRegs _ | .loadRegs _ => true

end Sys2Proof
end

