-- ==== Sys2Proof/Decode.lean ====
section
/-! DEFINITION. Decoding a 16-bit word (spec/30_encoding.md R50 to R62), the decoder of bytes, the encoder, and the opcode
table of R61/R65 as a list of rows with a decoder of its own. The machine uses `decodeWord`. -/

namespace Sys2Proof

/-! ## Fields (R51) -/

/-- `op = IR[15:12]`. -/
def opOf (w : Word) : Nibble := w.extractLsb' 12 4

/-- `IR[11:8]` as four bits. -/
def xBits (w : Word) : Nibble := w.extractLsb' 8 4

/-- `IR[7:4]` as four bits. -/
def yBits (w : Word) : Nibble := w.extractLsb' 4 4

/-- `n = IR[3:0]`. -/
def nOf (w : Word) : Nibble := w.extractLsb' 0 4

/-- `x = IR[11:8]`, a register index. -/
def xOf (w : Word) : Reg := (xBits w).toFin

/-- `y = IR[7:4]`, a register index. -/
def yOf (w : Word) : Reg := (yBits w).toFin

/-- `kk = IR[7:0]`. -/
def kkOf (w : Word) : Byte := w.extractLsb' 0 8

/-- `nnn = IR[11:0]`. -/
def nnnOf (w : Word) : Addr := w.extractLsb' 0 12

/-! ## The Dispatcher (R54 to R58) -/

/-- Family 0: sub-dispatch on the bottom nibble; bits 11..4 are not examined (R55). -/
def decodeFamily0 (w : Word) : Instr :=
  match (nOf w).toNat with
  | 0x0 => .cls
  | 0xE => .ret
  | _ => .sys (nnnOf w)

/-- Family 8: sub-dispatch on the bottom nibble (R56). -/
def decodeFamily8 (w : Word) : Instr :=
  match (nOf w).toNat with
  | 0x0 => .ldReg (xOf w) (yOf w)
  | 0x1 => .orReg (xOf w) (yOf w)
  | 0x2 => .andReg (xOf w) (yOf w)
  | 0x3 => .xorReg (xOf w) (yOf w)
  | 0x4 => .addReg (xOf w) (yOf w)
  | 0x5 => .subReg (xOf w) (yOf w)
  | 0x6 => .shr (xOf w) (yOf w)
  | 0x7 => .subnReg (xOf w) (yOf w)
  | 0xE => .shl (xOf w) (yOf w)
  | _ => .undef8 (xOf w) (yOf w) (nOf w)

/-- Family E: sub-dispatch on the bottom nibble; bits 7..4 are not examined (R57). -/
def decodeFamilyE (w : Word) : Instr :=
  match (nOf w).toNat with
  | 0xE => .skp (xOf w)
  | 0x1 => .sknp (xOf w)
  | _ => .undefE (xOf w) (kkOf w)

/-- Family F: sub-dispatch on the bottom byte (R58). -/
def decodeFamilyF (w : Word) : Instr :=
  match (kkOf w).toNat with
  | 0x07 => .ldVxDt (xOf w)
  | 0x0A => .ldVxK (xOf w)
  | 0x15 => .ldDtVx (xOf w)
  | 0x18 => .ldStVx (xOf w)
  | 0x1E => .addI (xOf w)
  | 0x29 => .ldF (xOf w)
  | 0x33 => .ldB (xOf w)
  | 0x55 => .storeRegs (xOf w)
  | 0x65 => .loadRegs (xOf w)
  | _ => .undefF (xOf w) (kkOf w)

/-- Primary dispatch on the top nibble (R54). Total: every word is one of the 35 instructions or a no-op (R62). The last
arm is family F, the one value of a nibble the others leave. -/
def decodeWord (w : Word) : Instr :=
  match (opOf w).toNat with
  | 0x0 => decodeFamily0 w
  | 0x1 => .jp (nnnOf w)
  | 0x2 => .call (nnnOf w)
  | 0x3 => .seImm (xOf w) (kkOf w)
  | 0x4 => .sneImm (xOf w) (kkOf w)
  | 0x5 => .seReg (xOf w) (yOf w)
  | 0x6 => .ldImm (xOf w) (kkOf w)
  | 0x7 => .addImm (xOf w) (kkOf w)
  | 0x8 => decodeFamily8 w
  | 0x9 => .sneReg (xOf w) (yOf w)
  | 0xA => .ldI (nnnOf w)
  | 0xB => .jpV0 (nnnOf w)
  | 0xC => .rnd (xOf w) (kkOf w)
  | 0xD => .drw (xOf w) (yOf w) (nOf w)
  | 0xE => decodeFamilyE w
  | _ => decodeFamilyF w

/-! ## Decoding bytes -/

/-- Why bytes hold no instruction. No word is refused (R62); only a missing byte is. -/
inductive DecodeError where
  /-- There is no byte. -/
  | noBytes
  /-- There is one byte, and an instruction is two (R50). -/
  | oneByte
deriving DecidableEq, Repr

/-- The 16-bit word of two bytes, the first at the lower address and in the high half (R34, R50). -/
def wordOfBytes (hi lo : Byte) : Word := hi ++ lo

/-- The high half of a word: the byte stored at the lower address (R34). -/
def hiByte (w : Word) : Byte := w.extractLsb' 8 8

/-- The low half of a word: the byte stored at the higher address (R34). -/
def loByte (w : Word) : Byte := w.extractLsb' 0 8

/-- The instruction at the head of the bytes, and the bytes after it (R50). -/
def decodeBytes : List Byte → Except DecodeError (Instr × List Byte)
  | [] => .error .noBytes
  | [_] => .error .oneByte
  | hi :: lo :: rest => .ok (decodeWord (wordOfBytes hi lo), rest)

/-- The bits of an instruction as spec/opcode_table.json numbers them (one 16-bit word, bit 0 its least significant bit),
laid out as the hardware stores them and given to the decoder. -/
def decodeTableWord (nbits w : Nat) : Option Instr :=
  if nbits ≤ 16 then
    match decodeBytes [hiByte (BitVec.ofNat 16 (w % 2 ^ nbits)), loByte (BitVec.ofNat 16 (w % 2 ^ nbits))] with
    | .ok (i, _) => some i
    | .error _ => none
  else none

/-! ## The encoder (R52, R61) -/

/-- The four bits of a register index. -/
def regBits (r : Reg) : Nibble := BitVec.ofFin r

/-- Format NNN (R52). -/
def wordNNN (op : Nibble) (nnn : Addr) : Word := op ++ nnn

/-- Format XKK (R52), and format XS with its sub-opcode in `kk`. -/
def wordXKK (op x : Nibble) (kk : Byte) : Word := op ++ x ++ kk

/-- Formats XY and XYN (R52). -/
def wordXYN (op x y n : Nibble) : Word := op ++ x ++ y ++ n

/-- The canonical word of an instruction (R59): ignored bits as the pattern shows them. -/
def encode : Instr → Word
  | .cls => 0x00E0
  | .ret => 0x00EE
  | .sys nnn => wordNNN 0x0 nnn
  | .jp nnn => wordNNN 0x1 nnn
  | .call nnn => wordNNN 0x2 nnn
  | .seImm x kk => wordXKK 0x3 (regBits x) kk
  | .sneImm x kk => wordXKK 0x4 (regBits x) kk
  | .seReg x y => wordXYN 0x5 (regBits x) (regBits y) 0x0
  | .ldImm x kk => wordXKK 0x6 (regBits x) kk
  | .addImm x kk => wordXKK 0x7 (regBits x) kk
  | .ldReg x y => wordXYN 0x8 (regBits x) (regBits y) 0x0
  | .orReg x y => wordXYN 0x8 (regBits x) (regBits y) 0x1
  | .andReg x y => wordXYN 0x8 (regBits x) (regBits y) 0x2
  | .xorReg x y => wordXYN 0x8 (regBits x) (regBits y) 0x3
  | .addReg x y => wordXYN 0x8 (regBits x) (regBits y) 0x4
  | .subReg x y => wordXYN 0x8 (regBits x) (regBits y) 0x5
  | .shr x y => wordXYN 0x8 (regBits x) (regBits y) 0x6
  | .subnReg x y => wordXYN 0x8 (regBits x) (regBits y) 0x7
  | .shl x y => wordXYN 0x8 (regBits x) (regBits y) 0xE
  | .undef8 x y n => wordXYN 0x8 (regBits x) (regBits y) n
  | .sneReg x y => wordXYN 0x9 (regBits x) (regBits y) 0x0
  | .ldI nnn => wordNNN 0xA nnn
  | .jpV0 nnn => wordNNN 0xB nnn
  | .rnd x kk => wordXKK 0xC (regBits x) kk
  | .drw x y n => wordXYN 0xD (regBits x) (regBits y) n
  | .skp x => wordXKK 0xE (regBits x) 0x9E
  | .sknp x => wordXKK 0xE (regBits x) 0xA1
  | .undefE x kk => wordXKK 0xE (regBits x) kk
  | .ldVxDt x => wordXKK 0xF (regBits x) 0x07
  | .ldVxK x => wordXKK 0xF (regBits x) 0x0A
  | .ldDtVx x => wordXKK 0xF (regBits x) 0x15
  | .ldStVx x => wordXKK 0xF (regBits x) 0x18
  | .addI x => wordXKK 0xF (regBits x) 0x1E
  | .ldF x => wordXKK 0xF (regBits x) 0x29
  | .ldB x => wordXKK 0xF (regBits x) 0x33
  | .storeRegs x => wordXKK 0xF (regBits x) 0x55
  | .loadRegs x => wordXKK 0xF (regBits x) 0x65
  | .undefF x kk => wordXKK 0xF (regBits x) kk

/-- The two bytes of an instruction as memory holds them (R50). -/
def encodeBytes (i : Instr) : List Byte := [hiByte (encode i), loByte (encode i)]

/-! ## The opcode table as a list of rows (R61, R65) -/

/-- A row of spec/opcode_table.json: its mnemonic, the bits that select it, and the instruction it reads from a word. -/
structure TableRow where
  mnemonic : String
  pattern : Word
  mask : Word
  build : Word → Instr

/-- The rows of families 0 to 7. -/
def tableLow : List TableRow :=
  [⟨"CLS", 0x0000, 0xF00F, fun _ => .cls⟩,
   ⟨"RET", 0x000E, 0xF00F, fun _ => .ret⟩,
   ⟨"SYS_nnn", 0x0000, 0xF000, fun w => .sys (nnnOf w)⟩,
   ⟨"JP_nnn", 0x1000, 0xF000, fun w => .jp (nnnOf w)⟩,
   ⟨"CALL_nnn", 0x2000, 0xF000, fun w => .call (nnnOf w)⟩,
   ⟨"SE_Vx__kk", 0x3000, 0xF000, fun w => .seImm (xOf w) (kkOf w)⟩,
   ⟨"SNE_Vx__kk", 0x4000, 0xF000, fun w => .sneImm (xOf w) (kkOf w)⟩,
   ⟨"SE_Vx__Vy", 0x5000, 0xF000, fun w => .seReg (xOf w) (yOf w)⟩,
   ⟨"LD_Vx__kk", 0x6000, 0xF000, fun w => .ldImm (xOf w) (kkOf w)⟩,
   ⟨"ADD_Vx__kk", 0x7000, 0xF000, fun w => .addImm (xOf w) (kkOf w)⟩]

/-- The rows of family 8, its default last. -/
def tableFamily8 : List TableRow :=
  [⟨"LD_Vx__Vy", 0x8000, 0xF00F, fun w => .ldReg (xOf w) (yOf w)⟩,
   ⟨"OR_Vx__Vy", 0x8001, 0xF00F, fun w => .orReg (xOf w) (yOf w)⟩,
   ⟨"AND_Vx__Vy", 0x8002, 0xF00F, fun w => .andReg (xOf w) (yOf w)⟩,
   ⟨"XOR_Vx__Vy", 0x8003, 0xF00F, fun w => .xorReg (xOf w) (yOf w)⟩,
   ⟨"ADD_Vx__Vy", 0x8004, 0xF00F, fun w => .addReg (xOf w) (yOf w)⟩,
   ⟨"SUB_Vx__Vy", 0x8005, 0xF00F, fun w => .subReg (xOf w) (yOf w)⟩,
   ⟨"SHR_Vx", 0x8006, 0xF00F, fun w => .shr (xOf w) (yOf w)⟩,
   ⟨"SUBN_Vx__Vy", 0x8007, 0xF00F, fun w => .subnReg (xOf w) (yOf w)⟩,
   ⟨"SHL_Vx", 0x800E, 0xF00F, fun w => .shl (xOf w) (yOf w)⟩,
   ⟨"UNDEF8", 0x8000, 0xF000, fun w => .undef8 (xOf w) (yOf w) (nOf w)⟩]

/-- The rows of families 9 to E, family E's default last. -/
def tableMiddle : List TableRow :=
  [⟨"SNE_Vx__Vy", 0x9000, 0xF000, fun w => .sneReg (xOf w) (yOf w)⟩,
   ⟨"LD_I__nnn", 0xA000, 0xF000, fun w => .ldI (nnnOf w)⟩,
   ⟨"JP_V0__nnn", 0xB000, 0xF000, fun w => .jpV0 (nnnOf w)⟩,
   ⟨"RND_Vx__kk", 0xC000, 0xF000, fun w => .rnd (xOf w) (kkOf w)⟩,
   ⟨"DRW_Vx__Vy__n", 0xD000, 0xF000, fun w => .drw (xOf w) (yOf w) (nOf w)⟩,
   ⟨"SKP_Vx", 0xE00E, 0xF00F, fun w => .skp (xOf w)⟩,
   ⟨"SKNP_Vx", 0xE001, 0xF00F, fun w => .sknp (xOf w)⟩,
   ⟨"UNDEFE", 0xE000, 0xF000, fun w => .undefE (xOf w) (kkOf w)⟩]

/-- The rows of family F, its default last. -/
def tableFamilyF : List TableRow :=
  [⟨"LD_Vx__DT", 0xF007, 0xF0FF, fun w => .ldVxDt (xOf w)⟩,
   ⟨"LD_Vx__K", 0xF00A, 0xF0FF, fun w => .ldVxK (xOf w)⟩,
   ⟨"LD_DT__Vx", 0xF015, 0xF0FF, fun w => .ldDtVx (xOf w)⟩,
   ⟨"LD_ST__Vx", 0xF018, 0xF0FF, fun w => .ldStVx (xOf w)⟩,
   ⟨"ADD_I__Vx", 0xF01E, 0xF0FF, fun w => .addI (xOf w)⟩,
   ⟨"LD_F__Vx", 0xF029, 0xF0FF, fun w => .ldF (xOf w)⟩,
   ⟨"LD_B__Vx", 0xF033, 0xF0FF, fun w => .ldB (xOf w)⟩,
   ⟨"LD__I___Vx", 0xF055, 0xF0FF, fun w => .storeRegs (xOf w)⟩,
   ⟨"LD_Vx___I", 0xF065, 0xF0FF, fun w => .loadRegs (xOf w)⟩,
   ⟨"UNDEFF", 0xF000, 0xF000, fun w => .undefF (xOf w) (kkOf w)⟩]

/-- The 38 rows in priority order (R65). -/
def opcodeTable : List TableRow := tableLow ++ tableFamily8 ++ tableMiddle ++ tableFamilyF

/-- "The first row whose (word & mask) = match holds is the instruction" (R65). -/
def decodeByTable (w : Word) : Option Instr :=
  (opcodeTable.find? fun r => w &&& r.mask == r.pattern).map fun r => r.build w

/-- The bits of a word that the Dispatcher and the instruction it selects do not use, 1 for an ignored bit (R59). The
no-ops are left out: their constructors keep all their bits. -/
def ignoredBits (w : Word) : Word :=
  match (opOf w).toNat, (nOf w).toNat with
  | 0x0, 0x0 | 0x0, 0xE => 0x0FF0
  | 0x5, _ | 0x9, _ => 0x000F
  | 0xE, 0xE | 0xE, 0x1 => 0x00F0
  | _, _ => 0x0000

end Sys2Proof
end

