-- ==== Sys2Proof/Config.lean ====
section
/-! DEFINITION. The implementation parameters of spec/00_scope.md R4 that are numbers, and the one value the spec leaves
free: the random byte. -/

namespace Sys2Proof

/-- MEMSIZE (R4): addresses 0x000 to 0xFFF. -/
abbrev Config.memSize : Nat := 4096

/-- PROGBASE (R4): the load address and the reset value of `pc`. -/
abbrev Config.progBase : Nat := 0x200

/-- PROGMAX (R4): the largest program that may be loaded. -/
abbrev Config.progMax : Nat := 3584

/-- FONTBASE (R4). -/
abbrev Config.fontBase : Nat := 0x050

/-- FONTBYTES per glyph (R4, R31): glyph `d` is at `0x050 + 5*d`. -/
abbrev Config.glyphBytes : Nat := 5

/-- STACKDEPTH (R4): the number of call-stack slots. -/
abbrev Config.stackDepth : Nat := 16

/-- Columns of the framebuffer (R4, R122). -/
abbrev Config.cols : Nat := 64

/-- Rows of the framebuffer (R4, R122). -/
abbrev Config.rows : Nat := 32

/-- FREE VALUE (log entry 1). The byte the random source yields at its n-th consultation, once no supplied byte is left:
"a model takes each `Rnd()` as a free byte, under no law" (R25). It has no body, so nothing can be proved of its values. -/
opaque Config.rndByte : Nat → Byte

end Sys2Proof
end

