-- ==== Sys2Proof/Machine/Memory.lean ====
section
/-! DEFINITION. The byte memory (spec/20_memory.md R30, R31): 4096 bytes, held as the list of the cells that differ from
their reset contents. Addresses here are already reduced modulo 4096; Ops.lean reduces them (R32, R33). -/

namespace Sys2Proof.Machine

/-- Glyphs 0 to 7 of the font (R43; the byte values are general knowledge, log entry 12). -/
def fontLow : List Byte :=
  [0xF0, 0x90, 0x90, 0x90, 0xF0] ++ [0x20, 0x60, 0x20, 0x20, 0x70] ++
  [0xF0, 0x10, 0xF0, 0x80, 0xF0] ++ [0xF0, 0x10, 0xF0, 0x10, 0xF0] ++
  [0x90, 0x90, 0xF0, 0x10, 0x10] ++ [0xF0, 0x80, 0xF0, 0x10, 0xF0] ++
  [0xF0, 0x80, 0xF0, 0x90, 0xF0] ++ [0xF0, 0x10, 0x20, 0x40, 0x40]

/-- Glyphs 8 to F of the font (R43). -/
def fontHigh : List Byte :=
  [0xF0, 0x90, 0xF0, 0x90, 0xF0] ++ [0xF0, 0x90, 0xF0, 0x10, 0xF0] ++
  [0xF0, 0x90, 0xF0, 0x90, 0x90] ++ [0xE0, 0x90, 0xE0, 0x90, 0xE0] ++
  [0xF0, 0x80, 0x80, 0x80, 0xF0] ++ [0xE0, 0x90, 0x90, 0x90, 0xE0] ++
  [0xF0, 0x80, 0xF0, 0x80, 0xF0] ++ [0xF0, 0x80, 0xF0, 0x80, 0x80]

/-- The 80 font bytes, glyph 0 first (R43). -/
def font : List Byte := fontLow ++ fontHigh

/-- What an address that memory does not list reads as: its reset contents, the font at 0x050..0x09F and zero elsewhere
(spec/10_state.md R27). -/
def resetByte (a : Nat) : Byte :=
  if a < Config.fontBase then 0 else font.getD (a - Config.fontBase) 0

/-- Memory: the cells that differ from their reset contents. -/
structure Memory where
  cells : List Host.Cell
deriving DecidableEq, Repr

/-- The byte a list of cells gives for an address. -/
def readCells : List Host.Cell → Nat → Byte
  | [], a => resetByte a
  | (a', b') :: rest, a => if a' = a then b' else readCells rest a

/-- The byte at an address. -/
def Memory.read (m : Memory) (a : Nat) : Byte := readCells m.cells a

/-- The cells that hold `b` at `a`: none when `b` is the reset contents of `a`. -/
def cellOf (a : Nat) (b : Byte) : List Host.Cell :=
  if b = resetByte a then [] else [(a, b)]

/-- Put a cell where its address belongs in a list in rising order that does not list the address. -/
def placeCell : List Host.Cell → Nat → Byte → List Host.Cell
  | [], a, b => cellOf a b
  | (a', b') :: rest, a, b =>
    if a < a' then cellOf a b ++ (a', b') :: rest else (a', b') :: placeCell rest a b

/-- Memory with `b` at `a`: any old cell of `a` goes, and the new one stands where its address belongs. -/
def Memory.write (m : Memory) (a : Nat) (b : Byte) : Memory :=
  ⟨placeCell (m.cells.filter fun c => c.1 != a) a b⟩

/-- The canonical form: addresses strictly rising, below 4096, and no cell equal to its reset contents. -/
abbrev Memory.wf (m : Memory) : Prop :=
  m.cells.Pairwise (fun c d => c.1 < d.1) ∧ ∀ c ∈ m.cells, c.1 < Config.memSize ∧ c.2 ≠ resetByte c.1

end Sys2Proof.Machine
end

