-- ==== Sys2Proof/Machine/State.lean ====
section
/-! DEFINITION. The machine state (spec/10_state.md R10 to R28), its reset value (R27), and the reasons a step or a host
port can stop. -/

namespace Sys2Proof.Machine

/-- The state of the Cycle Driver (R23). -/
inductive RunState where
  /-- Before the first cycle. -/
  | idle
  /-- From the first cycle on. -/
  | running
deriving DecidableEq, Repr

/-- The three reportable conditions of a cycle (spec/60_exceptions.md R140, R145). -/
structure Status where
  /-- Bit 0: stack overflow (R141). -/
  sovf : Bool
  /-- Bit 1: stack underflow (R142). -/
  sunf : Bool
  /-- Bit 2: an access at an effective address of 4096 or more (R143). -/
  aw : Bool
deriving DecidableEq, Repr

/-- One row of the framebuffer: 64 cells, column 0 first (R20). -/
abbrev FbRow := Vector Bool 64

structure State where
  /-- General registers V0..VF (R11); VF is the flag (R12). -/
  v : Vector Byte 16
  /-- Index register `I` (R13). -/
  i : Word
  /-- Program counter (R14). -/
  pc : Word
  /-- Call-stack slots (R15). -/
  stack : Vector Word 16
  /-- Number of return addresses on the stack, 0 to 16 (R16). -/
  sp : Fin 17
  /-- Delay timer (R17). -/
  dt : Byte
  /-- Sound timer (R18). -/
  st : Byte
  /-- Key states; bit `k` is key `k` (R19). -/
  keypad : BitVec 16
  /-- Framebuffer: 32 rows of 64 cells (R20). -/
  fb : Vector FbRow 32
  /-- Instruction word register (R21). -/
  ir : Word
  /-- Memory (R24). -/
  mem : Memory
  /-- State of the Cycle Driver (R23). -/
  run : RunState
  /-- The result of the last cycle, an output of the core (R22; log entry 3). -/
  status : Status
  /-- The model's own: the keypad values the host sets before each of the coming cycles, oldest first (R19; log entry 2). -/
  keySchedule : List (BitVec 16)
  /-- The model's own: the bytes a substituted random source will yield, oldest first (R25; log entry 1). -/
  rndSupply : List Byte
  /-- The model's own: how many random bytes have been drawn (R25; log entry 1). -/
  rndDrawn : Nat
  /-- The model's own sticky bit: some cycle since reset reported a stack condition
  (spec/93_implementation_defined.md U1; log entry 4). No instruction reads it. -/
  stackFaultSeen : Bool
deriving DecidableEq, Repr

/-- Why the machine stops with a fault: never. The spec gives every word an effect (spec/30_encoding.md R62), wraps every
address (spec/20_memory.md R32, R33), and reports its three conditions in `status` while the machine goes on
(spec/60_exceptions.md R148). Safe: no behaviour is cut off. -/
inductive Fault
deriving DecidableEq, Repr

/-- Why a meaning or a host port is refused. -/
inductive Refusal where
  /-- Raised by an arm of `exec` whose instruction has no meaning yet; no arm raises it now. Safe. -/
  | notModelled (mnemonic : String)
  /-- Raised by the load port on more than 3584 bytes: "a load longer than 3584 bytes has no defined meaning"
  (spec/70_reset_and_hazards.md R161; U5). Safe. -/
  | loadTooLong
  /-- Raised by the load port while the core is running: a meaning is given "only while the Cycle Driver is idle"
  (R161; U15). Safe. -/
  | loadWhileRunning
deriving DecidableEq, Repr

/-- What a meaning or a step answers. -/
abbrev Result := Host.Outcome State Fault Refusal

/-- No condition reported: `status = 0` (R78). -/
def Status.clear : Status := ⟨false, false, false⟩

/-- The machine right after reset (R27, R160). Memory lists nothing: every address reads as its reset contents. The last
four fields are the model's own (log entries 1, 2 and 4). -/
def State.reset : State where
  v := Vector.replicate 16 0
  i := 0
  pc := 0x200
  stack := Vector.replicate 16 0
  sp := 0
  dt := 0
  st := 0
  keypad := 0
  fb := Vector.replicate 32 (Vector.replicate 64 false)
  ir := 0
  mem := ⟨[]⟩
  run := .idle
  status := Status.clear
  keySchedule := []
  rndSupply := []
  rndDrawn := 0
  stackFaultSeen := false

end Sys2Proof.Machine
end

