-- ==== Sys2Proof/Machine/Ops.lean ====
section
/-! DEFINITION. The named operations over registers, memory, call stack, timers and framebuffer that every meaning is
written with, and the ONE operation that raises a condition (spec/60_exceptions.md R148). There is no return from a
condition beside it: nothing was saved (R150). -/

namespace Sys2Proof.Machine

/-! ## Raising a condition (R140, R148) -/

/-- The three conditions of R140. -/
inductive Condition where
  /-- `2nnn` on a full stack (R141). -/
  | stackOverflow
  /-- `00EE` on an empty stack (R142). -/
  | stackUnderflow
  /-- An access at an effective address of 4096 or more (R143). -/
  | addrWrap
deriving DecidableEq, Repr

/-- The status with the condition's bit set; the other bits stay (R78: "bits are only set during a cycle"). -/
def Status.report (st : Status) : Condition → Status
  | .stackOverflow => { st with sovf := true }
  | .stackUnderflow => { st with sunf := true }
  | .addrWrap => { st with aw := true }

/-- Whether the condition is a stack condition, which the model's sticky bit records (U1). -/
def Condition.isStack : Condition → Bool
  | .stackOverflow | .stackUnderflow => true
  | .addrWrap => false

/-- Raise a condition: "the only effect is the `status` bit" (R148), and the model's sticky bit (log entry 4). -/
def State.raise (s : State) (c : Condition) : State :=
  { s with status := s.status.report c, stackFaultSeen := s.stackFaultSeen || c.isStack }

/-! ## Registers (R11 to R14, R17, R18) -/

/-- `V[r]` (R6). -/
def State.readV (s : State) (r : Reg) : Byte := s.v[r]

/-- `V[r] <- b` (R6). No register is hardwired (R11). -/
def State.writeV (s : State) (r : Reg) (b : Byte) : State := { s with v := s.v.set r b }

/-- `I <- w` (R13). -/
def State.setI (s : State) (w : Word) : State := { s with i := w }

/-- `pc <- w` (R9, R14). -/
def State.setPc (s : State) (w : Word) : State := { s with pc := w }

/-- `pc <- (pc + 2) mod 2^16`: the advance of step 2 (R70) and the extra advance of a skip (R88). -/
def State.advancePc (s : State) : State := s.setPc (s.pc + 2)

/-- The skip law (R88): two further bytes when the condition holds, nothing otherwise. -/
def State.skipIf (s : State) (cond : Bool) : State := if cond then s.advancePc else s

/-- `pc <- (pc - 2) mod 2^16`: the roll-back of `Fx0A` (R132). -/
def State.rollBackPc (s : State) : State := s.setPc (s.pc - 2)

/-- `DT <- b` (R17). -/
def State.setDt (s : State) (b : Byte) : State := { s with dt := b }

/-- `ST <- b` (R18). -/
def State.setSt (s : State) (b : Byte) : State := { s with st := b }

/-- VF, the flag register (R12). -/
def flagReg : Reg := 15

/-! ## Memory (R32, R33) -/

/-- `mem[ea mod 4096]`, the byte a read at the effective address `ea` returns (R32). -/
def State.readByte (s : State) (ea : Nat) : Byte := s.mem.read (ea % Config.memSize)

/-- `note AddrWrap` when the effective address is 4096 or more (R9, R143). -/
def State.noteAccess (s : State) (ea : Nat) : State :=
  if Config.memSize ≤ ea then s.raise .addrWrap else s

/-- `MemRead(ea, 1)` (R32): the byte, and the state with a wrap noted. -/
def State.memRead (s : State) (ea : Nat) : Byte × State := (s.readByte ea, s.noteAccess ea)

/-- The state with `mem[ea mod 4096] <- b` and nothing noted. -/
def State.putByte (s : State) (ea : Nat) (b : Byte) : State :=
  { s with mem := s.mem.write (ea % Config.memSize) b }

/-- `MemWrite(ea, 1, b)` (R33): the write always happens; a wrap is noted. -/
def State.memWrite (s : State) (ea : Nat) (b : Byte) : State := (s.noteAccess ea).putByte ea b

/-- Store bytes at `ea`, `ea + 1`, … in that order, each address wrapped on its own (R116). -/
def State.storeBytes (s : State) (ea : Nat) : List Byte → State
  | [] => s
  | b :: rest => (s.memWrite ea b).storeBytes (ea + 1) rest

/-- Load the bytes at `ea`, `ea + 1`, … into the registers of the list, in that order (R115, R116). -/
def State.loadBytes (s : State) (ea : Nat) : List Reg → State
  | [] => s
  | r :: rest => ((s.memRead ea).2.writeV r (s.memRead ea).1).loadBytes (ea + 1) rest

/-- The registers V0..Vx inclusive, ascending (R114, R115). -/
def regsUpTo (x : Reg) : List Reg := (List.finRange 16).take (x.val + 1)

/-! ## Call stack (R16) -/

/-- `Push(v)` where a slot is free; nothing where the stack is full (R16). -/
def State.push (s : State) (w : Word) : Option State :=
  if h : s.sp.val < 16 then some { s with stack := s.stack.set s.sp.val w h, sp := ⟨s.sp.val + 1, by omega⟩ }
  else none

/-- `Pop()` where the stack holds a return address: the address and the state; nothing where it is empty (R16). The popped
slot keeps its value (R15). -/
def State.pop (s : State) : Option (Word × State) :=
  if h : 0 < s.sp.val then some (s.stack[s.sp.val - 1], { s with sp := ⟨s.sp.val - 1, by omega⟩ })
  else none

/-! ## Keypad and random byte (R19, R25) -/

/-- `keypad[k] = 1`: key `k` is down (R19). -/
def State.keyDown (s : State) (k : Key) : Bool := s.keypad.getLsbD k.val

/-- `LowestKey()`: the least key that is down, none when no key is (R9, R132). -/
def State.lowestKey (s : State) : Option Key := (List.finRange 16).find? s.keyDown

/-- `Rnd()` (R25): the next supplied byte, or the free byte of this draw when none is left (log entry 1). -/
def State.rndByte (s : State) : Byte := s.rndSupply.headD (Config.rndByte s.rndDrawn)

/-- The state after one consultation of the random source (R25: one element per executed `Cxkk`). -/
def State.rndConsumed (s : State) : State :=
  { s with rndSupply := s.rndSupply.tail, rndDrawn := s.rndDrawn + 1 }

/-! ## Framebuffer (R20) -/

/-- `fb[row][col] = 1`. -/
def State.pixel (s : State) (row : Fin 32) (col : Fin 64) : Bool := s.fb[row][col]

/-- `fb[row][col] <- b`. -/
def State.setPixel (s : State) (row : Fin 32) (col : Fin 64) (b : Bool) : State :=
  { s with fb := s.fb.set row (s.fb[row].set col b) }

/-- XOR a set sprite bit onto a cell; a cell that goes from set to unset is a collision and sets VF (R121, R124). -/
def State.togglePixel (s : State) (row : Fin 32) (col : Fin 64) : State :=
  (if s.pixel row col then s.writeV 15 1 else s).setPixel row col (!s.pixel row col)

/-- Every cell off (R120). -/
def State.clearScreen (s : State) : State :=
  { s with fb := Vector.replicate 32 (Vector.replicate 64 false) }

end Sys2Proof.Machine
end

