-- ==== Sys2Proof/Machine/Cycle.lean ====
section
/-! DEFINITION. The parts of a cycle around the executing instruction (spec/40_cycle_and_dispatch.md R70): the host's key
setting before it, the start, the fetch and advance, and the timer tick. -/

namespace Sys2Proof.Machine

/-- Between cycles the host sets the keypad to any value (R19; log entry 2): the next value of the schedule, or the old one
where the host does nothing. -/
def State.sampleKeys (s : State) : State :=
  { s with keypad := s.keySchedule.headD s.keypad, keySchedule := s.keySchedule.tail }

/-- `status <- 0` and `run <- running` (R70, R78, R79). -/
def State.beginCycle (s : State) : State := { s with status := Status.clear, run := .running }

/-- The word at an effective address: two byte reads, high byte first, each wrapped on its own (R34). -/
def State.wordAt (s : State) (ea : Nat) : Word := wordOfBytes (s.readByte ea) (s.readByte (ea + 1))

/-- Step 1: `IR <- MemRead(pc, 2)`, a wrap of either byte noted (R34, R70). -/
def State.fetch (s : State) : State :=
  { (s.noteAccess s.pc.toNat).noteAccess (s.pc.toNat + 1) with ir := s.wordAt s.pc.toNat }

/-- The state step 3 starts in: keys set, cycle begun, instruction fetched, `pc` advanced (R72). -/
def State.atDispatch (s : State) : State := s.sampleKeys.beginCycle.fetch.advancePc

/-- A timer after one tick: one less while nonzero, never below zero (R17, R18). -/
def tickTimer (b : Byte) : Byte := if b = 0 then 0 else b - 1

/-- Steps 4 and 5: both timers tick, in every cycle (R70; the spec's decision D5). -/
def State.tick (s : State) : State := (s.setDt (tickTimer s.dt)).setSt (tickTimer s.st)

/-- The end of a cycle: whatever instruction ran, a next state ticks. -/
def endCycle : Result → Result
  | .next t => .next t.tick
  | .fault r => .fault r
  | .refused r => .refused r

end Sys2Proof.Machine
end

