-- ==== Sys2Proof/Machine/Operands.lean ====
section
/-! DEFINITION. The operand forms (spec/30_encoding.md R53): unsigned immediates, the effective address `I + k`
(spec/43_index_and_memory.md R116), and the low nibble of a register used as a key number or a digit. -/

namespace Sys2Proof.Machine

/-- `nnn` zero-extended to 16 bits (R53). -/
def zextAddr (nnn : Addr) : Word := nnn.setWidth 16

/-- A byte zero-extended to 16 bits. -/
def zextByte (b : Byte) : Word := b.setWidth 16

/-- The effective address `I + k`, a natural number without truncation (R116). -/
def State.effAddr (s : State) (k : Nat) : Nat := s.i.toNat + k

/-- The low four bits of a byte. -/
def lowNibble (b : Byte) : Nibble := b.extractLsb' 0 4

/-- The key a register names: its low four bits (R130, R131; the spec's decision D15, log entry 9). -/
def keyOf (b : Byte) : Key := (lowNibble b).toFin

/-- The address of the glyph a register names: `0x050 + 5 * digit`, the digit its low four bits (R112; the spec's decision
D16, log entry 9). -/
def glyphAddr (b : Byte) : Word :=
  BitVec.ofNat 16 (Config.fontBase + Config.glyphBytes * (lowNibble b).toNat)

/-- The decimal digits of a byte: hundreds, tens, ones (R113). -/
def bcdDigits (b : Byte) : List Byte :=
  [BitVec.ofNat 8 (b.toNat / 100), BitVec.ofNat 8 (b.toNat / 10 % 10), BitVec.ofNat 8 (b.toNat % 10)]

/-- The column of the pixel at column offset `c` from origin `vx` (R121). -/
def pixelCol (vx : Byte) (c : Nat) : Fin 64 := Fin.ofNat 64 (vx.toNat + c)

/-- The row of the pixel at row offset `r` from origin `vy` (R121). -/
def pixelRow (vy : Byte) (r : Nat) : Fin 32 := Fin.ofNat 32 (vy.toNat + r)

/-- The sprite bit at column offset `c` of a row byte: bit `7 - c` (R123; general knowledge, log entry 11). -/
def spriteBit (b : Byte) (c : Nat) : Bool := b.getLsbD (7 - c)

end Sys2Proof.Machine
end

