-- ==== Sys2Proof/Machine/Control.lean ====
section
/-! DEFINITION. Control transfer (spec/41_control_flow.md R80 to R89). `pc` is already the address of the next instruction
when a meaning starts (spec/40_cycle_and_dispatch.md R72). -/

namespace Sys2Proof.Machine

/-- `00EE` RET (R80): pop into `pc`; on an empty stack raise StackUnderflow and change nothing else. -/
def execRet (s : State) : Result :=
  match s.pop with
  | some (w, t) => .next (t.setPc w)
  | none => .next (s.raise .stackUnderflow)

/-- `1nnn` JP (R81). -/
def execJp (nnn : Addr) (s : State) : Result := .next (s.setPc (zextAddr nnn))

/-- `2nnn` CALL (R82): push the advanced `pc`, jump; on a full stack raise StackOverflow and change nothing else. -/
def execCall (nnn : Addr) (s : State) : Result :=
  match s.push s.pc with
  | some t => .next (t.setPc (zextAddr nnn))
  | none => .next (s.raise .stackOverflow)

/-- `3xkk` SE Vx, kk (R83). -/
def execSeImm (x : Reg) (kk : Byte) (s : State) : Result := .next (s.skipIf (s.readV x == kk))

/-- `4xkk` SNE Vx, kk (R84). -/
def execSneImm (x : Reg) (kk : Byte) (s : State) : Result := .next (s.skipIf (s.readV x != kk))

/-- `5xy0` SE Vx, Vy (R85). -/
def execSeReg (x y : Reg) (s : State) : Result := .next (s.skipIf (s.readV x == s.readV y))

/-- `9xy0` SNE Vx, Vy (R86). -/
def execSneReg (x y : Reg) (s : State) : Result := .next (s.skipIf (s.readV x != s.readV y))

/-- `Bnnn` JP V0, nnn (R87): the sum is at most 0x10FE and is not truncated. -/
def execJpV0 (nnn : Addr) (s : State) : Result := .next (s.setPc (zextAddr nnn + zextByte (s.readV 0)))

end Sys2Proof.Machine
end

