-- ==== Sys2Proof/Machine/Display.lean ====
section
/-! DEFINITION. The display (spec/44_display.md R120 to R124). -/

namespace Sys2Proof.Machine

/-- Draw column offset `c` of a sprite row: a set bit is XORed onto its cell, a clear bit does nothing (R121, R124). -/
def drawBit (vx vy : Byte) (r : Nat) (b : Byte) (s : State) (c : Nat) : State :=
  if spriteBit b c then s.togglePixel (pixelRow vy r) (pixelCol vx c) else s

/-- Draw a sprite row: column offsets 0 to 7 in order (R121). -/
def drawBits (vx vy : Byte) (r : Nat) (b : Byte) (s : State) : State :=
  (List.range 8).foldl (drawBit vx vy r b) s

/-- Read and draw row `r` of the sprite at `ea` (R121). -/
def drawRow (vx vy : Byte) (ea : Nat) (s : State) (r : Nat) : State :=
  drawBits vx vy r (s.memRead (ea + r)).1 (s.memRead (ea + r)).2

/-- Draw the `n` rows of the sprite at `ea` in order; none when `n` is 0 (R121). -/
def drawRows (vx vy : Byte) (ea n : Nat) (s : State) : State :=
  (List.range n).foldl (drawRow vx vy ea) s

/-- `00E0` CLS (R120). -/
def execCls (s : State) : Result := .next s.clearScreen

/-- `Dxyn` DRW Vx, Vy, n (R121): the origin is latched before VF is cleared (the spec's decision D14, log entry 8). -/
def execDrw (x y : Reg) (n : Nibble) (s : State) : Result :=
  .next (drawRows (s.readV x) (s.readV y) (s.effAddr 0) n.toNat (s.writeV 15 0))

end Sys2Proof.Machine
end

