-- ==== Sys2Proof/Machine/IndexMem.lean ====
section
/-! DEFINITION. The index register and memory (spec/43_index_and_memory.md R110 to R116). -/

namespace Sys2Proof.Machine

/-- `Annn` LD I, nnn (R110). -/
def execLdI (nnn : Addr) (s : State) : Result := .next (s.setI (zextAddr nnn))

/-- `Fx1E` ADD I, Vx (R111): modulo 2^16, and no flag. -/
def execAddI (x : Reg) (s : State) : Result := .next (s.setI (s.i + zextByte (s.readV x)))

/-- `Fx29` LD F, Vx (R112): no memory access. -/
def execLdF (x : Reg) (s : State) : Result := .next (s.setI (glyphAddr (s.readV x)))

/-- `Fx33` LD B, Vx (R113): hundreds, tens, ones at `I`, `I + 1`, `I + 2`. -/
def execLdB (x : Reg) (s : State) : Result := .next (s.storeBytes (s.effAddr 0) (bcdDigits (s.readV x)))

/-- `Fx55` LD [I], Vx (R114): V0..Vx inclusive; `I` is unchanged. -/
def execStoreRegs (x : Reg) (s : State) : Result :=
  .next (s.storeBytes (s.effAddr 0) ((regsUpTo x).map s.readV))

/-- `Fx65` LD Vx, [I] (R115): V0..Vx inclusive; `I` is unchanged. -/
def execLoadRegs (x : Reg) (s : State) : Result := .next (s.loadBytes (s.effAddr 0) (regsUpTo x))

end Sys2Proof.Machine
end

