-- ==== Sys2Proof/Machine/KeyTimer.lean ====
section
/-! DEFINITION. The keypad and timer instructions (spec/45_keypad_and_timers.md R130 to R136). -/

namespace Sys2Proof.Machine

/-- `Ex9E` SKP Vx (R130). -/
def execSkp (x : Reg) (s : State) : Result := .next (s.skipIf (s.keyDown (keyOf (s.readV x))))

/-- `ExA1` SKNP Vx (R131). -/
def execSknp (x : Reg) (s : State) : Result := .next (s.skipIf (!s.keyDown (keyOf (s.readV x))))

/-- `Fx0A` LD Vx, K (R132): the lowest key that is down; with none down `pc` goes back to this instruction. -/
def execLdVxK (x : Reg) (s : State) : Result :=
  match s.lowestKey with
  | some k => .next (s.writeV x (BitVec.ofNat 8 k.val))
  | none => .next s.rollBackPc

/-- `Fx07` LD Vx, DT (R133): the value before this cycle's decrement. -/
def execLdVxDt (x : Reg) (s : State) : Result := .next (s.writeV x s.dt)

/-- `Fx15` LD DT, Vx (R134). -/
def execLdDtVx (x : Reg) (s : State) : Result := .next (s.setDt (s.readV x))

/-- `Fx18` LD ST, Vx (R135). -/
def execLdStVx (x : Reg) (s : State) : Result := .next (s.setSt (s.readV x))

end Sys2Proof.Machine
end

