-- ==== Sys2Proof/Machine/Flags.lean ====
section
/-! DEFINITION. The flag computations (spec/42_load_and_alu.md R96 to R103): each is computed exactly on natural numbers and
gives a flag that is 0 or 1 (spec/10_state.md R12). -/

namespace Sys2Proof.Machine

/-- The value a flag writes to VF: 0 or 1, never another (R12). -/
def flagByte (b : Bool) : Byte := if b then 1 else 0

/-- Carry of `8xy4`: the exact sum exceeds 255 (R96). -/
def carryFlag (a b : Byte) : Bool := decide (255 < a.toNat + b.toNat)

/-- NOT-borrow of `8xy5` and `8xy7`: the minuend is STRICTLY greater than the subtrahend, so 0 when they are equal
(R97, R99, R102; spec/90_conflicts.md C1). -/
def notBorrowFlag (minuend subtrahend : Byte) : Bool := decide (subtrahend.toNat < minuend.toNat)

/-- The bit `8xy6` shifts out: bit 0 before the shift (R98). -/
def shiftOutRight (a : Byte) : Bool := a.getLsbD 0

/-- The bit `8xyE` shifts out: bit 7 before the shift (R100). -/
def shiftOutLeft (a : Byte) : Bool := a.getLsbD 7

/-- Write a result to `V[x]`, then a flag to VF: "this hardware writes the flag last" (R103; the spec's decision D12, log
entry 8). -/
def State.writeWithFlag (s : State) (x : Reg) (result : Byte) (flag : Bool) : State :=
  (s.writeV x result).writeV flagReg (flagByte flag)

end Sys2Proof.Machine
end

