-- ==== Sys2Proof/Machine/LoadAlu.lean ====
section
/-! DEFINITION. Register loads, the 8-bit ALU and the random byte (spec/42_load_and_alu.md R90 to R103). Every meaning reads
its operands from the state it starts in (the operand latch, spec/40_cycle_and_dispatch.md R77). -/

namespace Sys2Proof.Machine

/-- `6xkk` LD Vx, kk (R90). -/
def execLdImm (x : Reg) (kk : Byte) (s : State) : Result := .next (s.writeV x kk)

/-- `7xkk` ADD Vx, kk (R91): wraps, and writes no flag. -/
def execAddImm (x : Reg) (kk : Byte) (s : State) : Result := .next (s.writeV x (s.readV x + kk))

/-- `8xy0` LD Vx, Vy (R92). -/
def execLdReg (x y : Reg) (s : State) : Result := .next (s.writeV x (s.readV y))

/-- `8xy1` OR Vx, Vy (R93): no flag. -/
def execOrReg (x y : Reg) (s : State) : Result := .next (s.writeV x (s.readV x ||| s.readV y))

/-- `8xy2` AND Vx, Vy (R94): no flag. -/
def execAndReg (x y : Reg) (s : State) : Result := .next (s.writeV x (s.readV x &&& s.readV y))

/-- `8xy3` XOR Vx, Vy (R95): no flag. -/
def execXorReg (x y : Reg) (s : State) : Result := .next (s.writeV x (s.readV x ^^^ s.readV y))

/-- `8xy4` ADD Vx, Vy (R96): VF is the carry. -/
def execAddReg (x y : Reg) (s : State) : Result :=
  .next (s.writeWithFlag x (s.readV x + s.readV y) (carryFlag (s.readV x) (s.readV y)))

/-- `8xy5` SUB Vx, Vy (R97): Vx is the minuend. -/
def execSubReg (x y : Reg) (s : State) : Result :=
  .next (s.writeWithFlag x (s.readV x - s.readV y) (notBorrowFlag (s.readV x) (s.readV y)))

/-- `8xy6` SHR Vx (R98): Vy takes no part. -/
def execShr (x _y : Reg) (s : State) : Result :=
  .next (s.writeWithFlag x (s.readV x >>> 1) (shiftOutRight (s.readV x)))

/-- `8xy7` SUBN Vx, Vy (R99): Vy is the minuend. -/
def execSubnReg (x y : Reg) (s : State) : Result :=
  .next (s.writeWithFlag x (s.readV y - s.readV x) (notBorrowFlag (s.readV y) (s.readV x)))

/-- `8xyE` SHL Vx (R100): Vy takes no part. -/
def execShl (x _y : Reg) (s : State) : Result :=
  .next (s.writeWithFlag x (s.readV x <<< 1) (shiftOutLeft (s.readV x)))

/-- `Cxkk` RND Vx, kk (R101): the source is consulted exactly once, also when `kk` is 0. -/
def execRnd (x : Reg) (kk : Byte) (s : State) : Result := .next (s.rndConsumed.writeV x (s.rndByte &&& kk))

end Sys2Proof.Machine
end

