-- ==== Sys2Proof/Machine/NoOps.lean ====
section
/-! DEFINITION. The no-op instructions (spec/40_cycle_and_dispatch.md R73 to R76): the cycle around them still advances
`pc` and ticks the timers; they themselves change nothing. -/

namespace Sys2Proof.Machine

/-- `0nnn` (R73). -/
def execSys (_nnn : Addr) (s : State) : Result := .next s

/-- Undefined `8xy?` (R74). -/
def execUndef8 (_x _y : Reg) (_n : Nibble) (s : State) : Result := .next s

/-- Undefined `Ex??` (R75): no skip is taken. -/
def execUndefE (_x : Reg) (_kk : Byte) (s : State) : Result := .next s

/-- Undefined `Fx??` (R76). -/
def execUndefF (_x : Reg) (_kk : Byte) (s : State) : Result := .next s

end Sys2Proof.Machine
end

