-- ==== Sys2Proof/Machine/Step.lean ====
section
/-! DEFINITION. One step of the machine is one cycle (spec/40_cycle_and_dispatch.md R70, R71). -/

namespace Sys2Proof.Machine

/-- Fetch, advance, execute the decoded word, tick the timers (R70). -/
def step (s : State) : Host.Outcome State Fault Refusal :=
  endCycle (exec (decodeWord s.atDispatch.ir) s.atDispatch)

/-- The state with an instruction stored where `step` fetches next: its high byte at `pc`, its low byte at `pc + 1`, each
address wrapped (spec/20_memory.md R34). It stands for the load of a program from outside the machine (log entry 14). -/
def State.withFetchWord (s : State) (nbits w : Nat) : State :=
  (s.putByte s.pc.toNat (hiByte (BitVec.ofNat 16 (w % 2 ^ nbits)))).putByte (s.pc.toNat + 1)
    (loByte (BitVec.ofNat 16 (w % 2 ^ nbits)))

end Sys2Proof.Machine
end

