-- ==== Sys2Proof/Machine/Ports.lean ====
section
/-! DEFINITION. The host's ports (spec/60_exceptions.md R153, spec/20_memory.md R42): what the outside world can do to the
core between cycles, and what it can read. The step port is `step`; the reset port is `State.reset` (R160). -/

namespace Sys2Proof.Machine

/-- Copy bytes into memory from an address on, noting nothing. -/
def State.putBytes (s : State) (ea : Nat) : List Byte → State
  | [] => s
  | b :: rest => (s.putByte ea b).putBytes (ea + 1) rest

/-- The load port (R161): `mem[0x200 + i] <- bytes[i]`, while idle and for at most 3584 bytes; any other load has no
meaning and is refused (U5, U15). -/
def loadProgram (bytes : List Byte) (s : State) : Result :=
  match s.run with
  | .running => .refused .loadWhileRunning
  | .idle => if bytes.length ≤ Config.progMax then .next (s.putBytes Config.progBase bytes) else .refused .loadTooLong

/-- The keypad mutator (R19): set or clear one key now, between cycles. -/
def State.setKey (s : State) (k : Key) (down : Bool) : State :=
  { s with keypad := if down then s.keypad ||| (1#16 <<< k.val) else s.keypad &&& ~~~(1#16 <<< k.val) }

/-- The keypad values the host will set before the coming cycles, after those already scheduled (R19, D21). -/
def State.scheduleKeys (s : State) (ks : List (BitVec 16)) : State := { s with keySchedule := s.keySchedule ++ ks }

/-- The random-source port (R25): "tests can supply deterministic sequences". -/
def State.supplyRandom (s : State) (bs : List Byte) : State := { s with rndSupply := s.rndSupply ++ bs }

/-- The read accessor of the framebuffer (R42). -/
def State.pixelOn (s : State) (row : Fin 32) (col : Fin 64) : Bool := s.pixel row col

/-- The read accessor of the delay timer (R42). -/
def State.delayTimer (s : State) : Byte := s.dt

/-- The read accessor of the sound timer, what an audio collaborator sees (R18, R42). -/
def State.soundTimer (s : State) : Byte := s.st

/-- The status port: `SOVF*1 + SUNF*2 + AW*4` (R145). -/
def State.statusValue (s : State) : BitVec 3 :=
  BitVec.ofNat 3 (s.status.sovf.toNat + 2 * s.status.sunf.toNat + 4 * s.status.aw.toNat)

end Sys2Proof.Machine
end

