-- ==== Sys2Proof/Safety.lean ====
section
/-! DEFINITION. The words the statements use: what an instruction leaves unchanged (frames), the invariant of the machine,
and what counts as a safe run (spec/93_implementation_defined.md U1). -/

namespace Sys2Proof.Machine

/-! ## Frames -/

/-- The parts of the state a frame speaks of: the pieces of spec/10_state.md R10, the output `status`, and the model's
own fields. -/
inductive Part where
  | regs | index | pc | stack | sp | delay | sound | keypad | screen | ir | memory | run | status
  | keySchedule | random | sticky
deriving DecidableEq, Repr

/-- A part reads the same in both states; memory through the model's read of one byte at every address. -/
def Part.Same (s t : State) : Part → Prop
  | .regs => ∀ r, t.readV r = s.readV r
  | .index => t.i = s.i
  | .pc => t.pc = s.pc
  | .stack => ∀ k : Fin 16, t.stack[k] = s.stack[k]
  | .sp => t.sp = s.sp
  | .delay => t.dt = s.dt
  | .sound => t.st = s.st
  | .keypad => t.keypad = s.keypad
  | .screen => ∀ row col, t.pixel row col = s.pixel row col
  | .ir => t.ir = s.ir
  | .memory => ∀ a, t.readByte a = s.readByte a
  | .run => t.run = s.run
  | .status => t.status = s.status
  | .keySchedule => t.keySchedule = s.keySchedule
  | .random => t.rndSupply = s.rndSupply ∧ t.rndDrawn = s.rndDrawn
  | .sticky => t.stackFaultSeen = s.stackFaultSeen

/-- Every part but the listed ones reads the same after as before. -/
def OnlyChanges (ps : List Part) (s t : State) : Prop := ∀ p, p ∉ ps → p.Same s t

/-- Every general register but the listed ones reads the same after as before. -/
def RegsSameExcept (rs : List Reg) (s t : State) : Prop := ∀ r, r ∉ rs → t.readV r = s.readV r

/-- `a` names one of the `n` bytes from the effective address `ea` on, each wrapped on its own (R116). -/
def StoredAt (ea n a : Nat) : Prop := ∃ k, k < n ∧ a % Config.memSize = (ea + k) % Config.memSize

/-! ## The invariant -/

/-- What every step keeps: memory in canonical form; never an overflow and an underflow in one status (R145); a stack
condition in the status is recorded by the sticky bit (U1); and no timer reads 255 between cycles, because a timer is
ticked in the cycle that sets it (R136, R165). -/
abbrev State.Inv (s : State) : Prop :=
  s.mem.wf ∧ ¬(s.status.sovf = true ∧ s.status.sunf = true) ∧
  (s.status.sovf = true ∨ s.status.sunf = true → s.stackFaultSeen = true) ∧
  s.dt.toNat ≤ 254 ∧ s.st.toNat ≤ 254

/-! ## Safe runs -/

/-- No cycle since reset reported a stack condition: the premise or conclusion U1 asks claims about a run to have. -/
abbrev State.Safe (s : State) : Prop := s.stackFaultSeen = false

end Sys2Proof.Machine

namespace Sys2Proof

/-! ## Kinds of instruction, as the spec's prose lists them -/

/-- "The instructions that write VF as a side effect are exactly six" (spec/10_state.md R12). -/
def Instr.writesFlag : Instr → Bool
  | .addReg _ _ | .subReg _ _ | .subnReg _ _ | .shr _ _ | .shl _ _ | .drw _ _ _ => true
  | _ => false

/-- The `x` field of an instruction that has one (spec/30_encoding.md R52). -/
def Instr.xField : Instr → Option Reg
  | .seImm x _ | .sneImm x _ | .ldImm x _ | .addImm x _ | .rnd x _ | .undefE x _ | .undefF x _ => some x
  | .seReg x _ | .ldReg x _ | .orReg x _ | .andReg x _ | .xorReg x _ | .addReg x _ | .subReg x _ | .shr x _ => some x
  | .subnReg x _ | .shl x _ | .undef8 x _ _ | .sneReg x _ | .drw x _ _ => some x
  | .skp x | .sknp x | .ldVxDt x | .ldVxK x | .ldDtVx x | .ldStVx x | .addI x | .ldF x | .ldB x => some x
  | .storeRegs x | .loadRegs x => some x
  | .cls | .ret | .sys _ | .jp _ | .call _ | .ldI _ | .jpV0 _ => none

/-- `I` "is written by `Annn`, `Fx1E` and `Fx29` only" (R13). -/
def Instr.writesIndex : Instr → Bool
  | .ldI _ | .addI _ | .ldF _ => true
  | _ => false

/-- The framebuffer "is written by `00E0` and `Dxyn` only" (R20). -/
def Instr.writesScreen : Instr → Bool
  | .cls | .drw _ _ _ => true
  | _ => false

/-- Memory is written by `Fx33` and `Fx55` only (spec/20_memory.md R30). -/
def Instr.writesMemory : Instr → Bool
  | .ldB _ | .storeRegs _ => true
  | _ => false

/-- The instructions that change `pc` beyond the advance (R14): jumps, call, return, the six skips, and `Fx0A`. -/
def Instr.writesPc : Instr → Bool
  | .jp _ | .call _ | .jpV0 _ | .ret | .seImm _ _ | .sneImm _ _ | .seReg _ _ | .sneReg _ _ | .skp _ | .sknp _ => true
  | .ldVxK _ => true
  | _ => false

/-- The undefined encodings, in the words of spec/30_encoding.md R60, over the word as a number. -/
def undefinedWord (w : Word) : Bool :=
  (w.toNat / 4096 == 0x0 && !([0x0, 0xE].contains (w.toNat % 16))) ||
  (w.toNat / 4096 == 0x8 && [0x8, 0x9, 0xA, 0xB, 0xC, 0xD, 0xF].contains (w.toNat % 16)) ||
  (w.toNat / 4096 == 0xE && !([0x1, 0xE].contains (w.toNat % 16))) ||
  (w.toNat / 4096 == 0xF && !([0x07, 0x0A, 0x15, 0x18, 0x1E, 0x29, 0x33, 0x55, 0x65].contains (w.toNat % 256)))

end Sys2Proof
end

