-- ==== Sys2Proof/Certificates/Slice0/Obligations.lean ====
section
/-! DEFINITION. The statements for the provers. `exec i s` is step 3 of a cycle: its state already has `pc` advanced
(spec/40_cycle_and_dispatch.md R72). Every per-instruction statement concludes that the instruction answers a next state,
says what that state holds, and gives the frame with `OnlyChanges` and `RegsSameExcept` (Safety.lean). -/

open Sys2Proof Sys2Proof.Machine

/-! ## Encoding and decoding -/

/-- Words written out from the bit patterns of R61, at least one for each of the sixteen values of the top nibble. -/
def Obligations.SampleWordsDecode : Prop :=
  decodeWord 0x00E0 = .cls ∧ decodeWord 0x00EE = .ret ∧ decodeWord 0x0123 = .sys 0x123 ∧
  decodeWord 0x1ABC = .jp 0xABC ∧ decodeWord 0x2400 = .call 0x400 ∧ decodeWord 0x3A05 = .seImm 10 0x05 ∧
  decodeWord 0x4A05 = .sneImm 10 0x05 ∧ decodeWord 0x5120 = .seReg 1 2 ∧ decodeWord 0x6FAB = .ldImm 15 0xAB ∧
  decodeWord 0x7003 = .addImm 0 0x03 ∧ decodeWord 0x8F14 = .addReg 15 1 ∧ decodeWord 0x8129 = .undef8 1 2 0x9 ∧
  decodeWord 0x9120 = .sneReg 1 2 ∧ decodeWord 0xA300 = .ldI 0x300 ∧ decodeWord 0xB342 = .jpV0 0x342 ∧
  decodeWord 0xC10F = .rnd 1 0x0F ∧ decodeWord 0xD235 = .drw 2 3 5 ∧
  decodeWord 0xE39E = .skp 3 ∧ decodeWord 0xE0A0 = .undefE 0 0xA0 ∧ decodeWord 0xF265 = .loadRegs 2 ∧
  decodeWord 0xF075 = .undefF 0 0x75

/-- The encoder loses nothing: an instruction's two bytes decode to it, whatever bytes follow. -/
def Obligations.DecodeOfEncode : Prop :=
  ∀ (i : Instr) (rest : List Byte), i.wf = true →
    decodeWord (encode i) = i ∧ decodeBytes (encodeBytes i ++ rest) = .ok (i, rest)

/-- The decoder loses only the ignored bits of R59 (D10): every word decodes to a well-formed instruction, whose canonical
word agrees with it on every bit that is not ignored. -/
def Obligations.EncodeOfDecode : Prop :=
  ∀ w : Word, (decodeWord w).wf = true ∧
    encode (decodeWord w) &&& ~~~ignoredBits w = w &&& ~~~ignoredBits w

/-- "A decoder written from the table alone reproduces rules R54 to R58" (R65). -/
def Obligations.TableReproducesDispatch : Prop :=
  ∀ w : Word, decodeByTable w = some (decodeWord w)

/-! ## The cycle -/

/-- A step runs the instruction its bytes decode to. The state step 3 starts in has the host's keys, a fresh status with
the fetch's wrap, `run` at running, `IR` and an advanced `pc`, and nothing else is changed; what exec answers there is what
step answers, both timers then ticking and nothing else changing (R70, R72; ticking in a cycle that reports a condition is
the spec's decision D5, the key schedule is the model's own, log entry 2). -/
def Obligations.StepRunsDecoded : Prop :=
  ∀ (s : State) (i : Instr) (rest : List Byte),
    decodeBytes (s.readByte s.pc.toNat :: s.readByte (s.pc.toNat + 1) :: rest) = .ok (i, rest) →
    ∃ d : State,
      d.keypad = s.keySchedule.headD s.keypad ∧ d.keySchedule = s.keySchedule.tail ∧ d.run = .running ∧
      d.status = ⟨false, false, decide (4095 ≤ s.pc.toNat)⟩ ∧ d.pc.toNat = (s.pc.toNat + 2) % 65536 ∧
      d.ir.toNat = 256 * (s.readByte s.pc.toNat).toNat + (s.readByte (s.pc.toNat + 1)).toNat ∧
      OnlyChanges [.keypad, .keySchedule, .run, .status, .pc, .ir] s d ∧
      (∀ r, exec i d = .fault r → step s = .fault r) ∧ (∀ r, exec i d = .refused r → step s = .refused r) ∧
      ∀ u, exec i d = .next u → ∃ t, step s = .next t ∧ t.dt.toNat = u.dt.toNat - 1 ∧ t.st.toNat = u.st.toNat - 1 ∧
        OnlyChanges [.delay, .sound] u t

/-- The fetch (R34): two byte reads, high byte first, each address wrapped on its own; a wrap of either is reported. -/
def Obligations.FetchIsBigEndian : Prop :=
  ∀ s : State,
    s.fetch.ir.toNat = 256 * (s.mem.read (s.pc.toNat % 4096)).toNat + (s.mem.read ((s.pc.toNat + 1) % 4096)).toNat ∧
    s.fetch.status = ⟨s.status.sovf, s.status.sunf, s.status.aw || decide (4096 ≤ s.pc.toNat + 1)⟩ ∧
    OnlyChanges [.ir, .status] s s.fetch

/-- Every word has an effect, nothing ends a run (R62, R172), and the Cycle Driver is running after any cycle (R23, R79). -/
def Obligations.StepAlwaysAnswersNext : Prop :=
  ∀ s : State, ∃ t, step s = .next t ∧ t.run = .running

/-- The undefined encodings of R60: they are exactly the words of the four no-op instructions; such a cycle fetches, advances
`pc`, ticks the timers and changes nothing else; and the four no-op instructions answer the state they start in. -/
def Obligations.UndefinedOpcodesAreNoOps : Prop :=
  (∀ w : Word, undefinedWord w = true ↔ (∃ nnn, decodeWord w = .sys nnn) ∨ (∃ x y n, decodeWord w = .undef8 x y n) ∨
    (∃ x kk, decodeWord w = .undefE x kk) ∨ ∃ x kk, decodeWord w = .undefF x kk) ∧
  (∀ s : State, undefinedWord (s.wordAt s.pc.toNat) = true → ∃ t, step s = .next t ∧
    t.pc.toNat = (s.pc.toNat + 2) % 65536 ∧ t.dt.toNat = s.dt.toNat - 1 ∧ t.st.toNat = s.st.toNat - 1 ∧
    t.ir = s.wordAt s.pc.toNat ∧ t.status = ⟨false, false, decide (4095 ≤ s.pc.toNat)⟩ ∧
    OnlyChanges [.keypad, .keySchedule, .run, .status, .pc, .ir, .delay, .sound] s t) ∧
  ∀ (s : State) (nnn : Addr) (x y : Reg) (n : Nibble) (kk : Byte),
    exec (.sys nnn) s = .next s ∧ exec (.undef8 x y n) s = .next s ∧ exec (.undefE x kk) s = .next s ∧
    exec (.undefF x kk) s = .next s

/-! ## Memory -/

/-- The access primitives (R32, R33): an address is reduced modulo 4096, the access always happens, a wrap is reported,
and nothing else changes. -/
def Obligations.MemoryAccessWrapsAndReports : Prop :=
  ∀ (s : State) (ea a : Nat) (b : Byte),
    (s.memRead ea).1 = s.mem.read (ea % 4096) ∧
    (s.memRead ea).2.status = ⟨s.status.sovf, s.status.sunf, s.status.aw || decide (4096 ≤ ea)⟩ ∧
    OnlyChanges [.status] s (s.memRead ea).2 ∧
    (s.memWrite ea b).readByte a = (if a % 4096 = ea % 4096 then b else s.readByte a) ∧
    (s.memWrite ea b).status = ⟨s.status.sovf, s.status.sunf, s.status.aw || decide (4096 ≤ ea)⟩ ∧
    OnlyChanges [.memory, .status] s (s.memWrite ea b)

/-- Memory has one form: two canonical memories that read the same at every address are equal data. -/
def Obligations.CanonicalMemoryIsUnique : Prop :=
  ∀ m m' : Memory, m.wf → m'.wf → (∀ a, m.read a = m'.read a) → m = m'

/-- A store is seen by the next fetch (R41, R168): a word stored at `pc` is the word the next cycle executes. -/
def Obligations.NextFetchSeesStore : Prop :=
  ∀ (s : State) (hi lo : Byte),
    (s.storeBytes s.pc.toNat [hi, lo]).atDispatch.ir = hi ++ lo

/-! ## Reset and the host's ports -/

/-- The 80 font bytes written out row by row from the table of R43, digit 0 first. -/
def fontTableR43 : List Byte :=
  [0xF0, 0x90, 0x90, 0x90, 0xF0] ++ [0x20, 0x60, 0x20, 0x20, 0x70] ++ [0xF0, 0x10, 0xF0, 0x80, 0xF0] ++
  [0xF0, 0x10, 0xF0, 0x10, 0xF0] ++ [0x90, 0x90, 0xF0, 0x10, 0x10] ++ [0xF0, 0x80, 0xF0, 0x10, 0xF0] ++
  [0xF0, 0x80, 0xF0, 0x90, 0xF0] ++ [0xF0, 0x10, 0x20, 0x40, 0x40] ++ [0xF0, 0x90, 0xF0, 0x90, 0xF0] ++
  [0xF0, 0x90, 0xF0, 0x10, 0xF0] ++ [0xF0, 0x90, 0xF0, 0x90, 0x90] ++ [0xE0, 0x90, 0xE0, 0x90, 0xE0] ++
  [0xF0, 0x80, 0x80, 0x80, 0xF0] ++ [0xE0, 0x90, 0x90, 0x90, 0xE0] ++ [0xF0, 0x80, 0xF0, 0x80, 0xF0] ++
  [0xF0, 0x80, 0xF0, 0x80, 0x80]

/-- Every state element after reset (R27, D22; the 80 font bytes are general knowledge, log entry 12). The model's own
fields are no elements of R27's table. -/
def Obligations.ResetValues : Prop :=
  (∀ r, State.reset.readV r = 0) ∧ State.reset.i = 0 ∧ State.reset.pc = 0x200 ∧
  (∀ k : Fin 16, State.reset.stack[k] = 0) ∧ State.reset.sp = 0 ∧ State.reset.dt = 0 ∧ State.reset.st = 0 ∧
  (∀ k, State.reset.keyDown k = false) ∧ (∀ row col, State.reset.pixel row col = false) ∧ State.reset.ir = 0 ∧
  State.reset.run = .idle ∧ State.reset.statusValue = 0 ∧
  (∀ a, a < 0x050 → State.reset.readByte a = 0) ∧
  (∀ a, 0x0A0 ≤ a → a < 0x1000 → State.reset.readByte a = 0) ∧
  (List.range 80).map (fun k => State.reset.readByte (0x050 + k)) = fontTableR43

/-- The load port (R161, D23): while idle, at most 3584 bytes are copied to 0x200 on and nothing else changes; a longer load,
or one while running, is refused. -/
def Obligations.LoadProgramCopies : Prop :=
  ∀ (s : State) (bytes : List Byte),
    (s.run = .idle → bytes.length ≤ 3584 → ∃ t, loadProgram bytes s = .next t ∧
      (∀ k (h : k < bytes.length), t.readByte (0x200 + k) = bytes[k]) ∧
      (∀ a, ¬StoredAt 0x200 bytes.length a → t.readByte a = s.readByte a) ∧ OnlyChanges [.memory] s t) ∧
    (s.run = .idle → 3584 < bytes.length → loadProgram bytes s = .refused .loadTooLong) ∧
    (s.run = .running → loadProgram bytes s = .refused .loadWhileRunning)

/-- The keypad mutator (R19): it sets or clears one of the 16 keys and nothing else. -/
def Obligations.KeypadMutatorSetsOneKey : Prop :=
  ∀ (s : State) (k j : Key) (down : Bool),
    (s.setKey k down).keyDown j = (if j = k then down else s.keyDown j) ∧ OnlyChanges [.keypad] s (s.setKey k down)

/-! ## Control transfer -/

/-- `Push` and `Pop` (R16): a push fails exactly on a full stack and a pop exactly on an empty one; a push writes the slot
`sp` named, a pop reads the slot below and keeps it. -/
def Obligations.PushAndPop : Prop :=
  ∀ (s : State) (w : Word),
    s.sp.val ≤ 16 ∧
    (s.push w = none ↔ s.sp.val = 16) ∧ (s.pop = none ↔ s.sp.val = 0) ∧
    (∀ t, s.push w = some t → t.sp.val = s.sp.val + 1 ∧ OnlyChanges [.stack, .sp] s t ∧
      ∀ k : Fin 16, t.stack[k] = if k.val = s.sp.val then w else s.stack[k]) ∧
    (∀ u t, s.pop = some (u, t) → t.sp.val + 1 = s.sp.val ∧ OnlyChanges [.sp] s t ∧
      ∀ k : Fin 16, k.val + 1 = s.sp.val → u = s.stack[k])

/-- `1nnn` and `Bnnn` (R81, R87). -/
def Obligations.JumpsSetPc : Prop :=
  ∀ (s : State) (nnn : Addr),
    decodeWord (wordNNN 0x1 nnn) = .jp nnn ∧ decodeWord (wordNNN 0xB nnn) = .jpV0 nnn ∧
    (∃ t, exec (.jp nnn) s = .next t ∧ t.pc.toNat = nnn.toNat ∧ OnlyChanges [.pc] s t) ∧
    (∃ t, exec (.jpV0 nnn) s = .next t ∧ t.pc.toNat = nnn.toNat + (s.readV 0).toNat ∧ OnlyChanges [.pc] s t)

/-- `2nnn` with a free slot (R82): the advanced `pc` is pushed, and `pc` is `nnn`. -/
def Obligations.CallPushesAndJumps : Prop :=
  ∀ (s : State) (nnn : Addr), s.sp.val < 16 → ∃ t, exec (.call nnn) s = .next t ∧
    t.pc.toNat = nnn.toNat ∧ t.sp.val = s.sp.val + 1 ∧
    (∀ k : Fin 16, t.stack[k] = if k.val = s.sp.val then s.pc else s.stack[k]) ∧ OnlyChanges [.pc, .sp, .stack] s t

/-- `2nnn` on a full stack (R141, D3): SOVF is reported and nothing else happens, the model's sticky bit apart. -/
def Obligations.CallOnFullStackReports : Prop :=
  ∀ (s : State) (nnn : Addr), s.sp.val = 16 → ∃ t, exec (.call nnn) s = .next t ∧
    t.status = ⟨true, s.status.sunf, s.status.aw⟩ ∧ t.stackFaultSeen = true ∧ OnlyChanges [.status, .sticky] s t

/-- `00EE` with a return address (R80): it goes to `pc`, all 16 bits, and the slot keeps its value. -/
def Obligations.RetPops : Prop :=
  ∀ (s : State) (k : Fin 16), s.sp.val = k.val + 1 → ∃ t, exec .ret s = .next t ∧
    t.pc = s.stack[k] ∧ t.sp.val = k.val ∧ OnlyChanges [.pc, .sp] s t

/-- `00EE` on an empty stack (R142, D4): SUNF is reported and nothing else happens, the model's sticky bit apart. -/
def Obligations.RetOnEmptyStackReports : Prop :=
  ∀ s : State, s.sp.val = 0 → ∃ t, exec .ret s = .next t ∧
    t.status = ⟨s.status.sovf, true, s.status.aw⟩ ∧ t.stackFaultSeen = true ∧ OnlyChanges [.status, .sticky] s t

/-- "`00EE` after `2nnn` restores `programCounter` and returns stack depth to its prior value" (R80's example, S7), whatever
the subroutine did, if it left the depth and the slots in use as the call left them. -/
def Obligations.RetUndoesCall : Prop :=
  ∀ (s t u : State) (nnn : Addr), s.sp.val < 16 → exec (.call nnn) s = .next t →
    u.sp = t.sp → (∀ k : Fin 16, k.val < t.sp.val → u.stack[k] = t.stack[k]) →
    ∃ w, exec .ret u = .next w ∧ w.pc = s.pc ∧ w.sp = s.sp ∧ ∀ k : Fin 16, k.val < s.sp.val → w.stack[k] = s.stack[k]

/-- The four register skips (R88, R83 to R86; the conditions are general knowledge, log entry 13): two further bytes when
the condition holds, none otherwise. -/
def Obligations.RegisterSkips : Prop :=
  ∀ (s : State) (x y : Reg) (kk : Byte),
    (∃ t, exec (.seImm x kk) s = .next t ∧ OnlyChanges [.pc] s t ∧
      t.pc.toNat = (s.pc.toNat + if (s.readV x).toNat = kk.toNat then 2 else 0) % 65536) ∧
    (∃ t, exec (.sneImm x kk) s = .next t ∧ OnlyChanges [.pc] s t ∧
      t.pc.toNat = (s.pc.toNat + if (s.readV x).toNat = kk.toNat then 0 else 2) % 65536) ∧
    (∃ t, exec (.seReg x y) s = .next t ∧ OnlyChanges [.pc] s t ∧
      t.pc.toNat = (s.pc.toNat + if (s.readV x).toNat = (s.readV y).toNat then 2 else 0) % 65536) ∧
    (∃ t, exec (.sneReg x y) s = .next t ∧ OnlyChanges [.pc] s t ∧
      t.pc.toNat = (s.pc.toNat + if (s.readV x).toNat = (s.readV y).toNat then 0 else 2) % 65536)

/-- The two keypad skips (R88, R130, R131; the conditions are general knowledge, log entry 13, and the low nibble is D15). -/
def Obligations.KeypadSkips : Prop :=
  ∀ (s : State) (x : Reg) (k : Key), (s.readV x).toNat % 16 = k.val →
    (∃ t, exec (.skp x) s = .next t ∧ OnlyChanges [.pc] s t ∧
      t.pc.toNat = (s.pc.toNat + if s.keyDown k = true then 2 else 0) % 65536) ∧
    (∃ t, exec (.sknp x) s = .next t ∧ OnlyChanges [.pc] s t ∧
      t.pc.toNat = (s.pc.toNat + if s.keyDown k = true then 0 else 2) % 65536)

/-! ## Loads, ALU, random -/

/-- "For all registers `Vx`, after `6xkk`, `Vx == kk` exactly" (R90). -/
def Obligations.LoadImmediate : Prop :=
  ∀ (s : State) (x : Reg) (kk : Byte), decodeWord (wordXKK 0x6 (regBits x) kk) = .ldImm x kk ∧
    ∃ t, exec (.ldImm x kk) s = .next t ∧ t.readV x = kk ∧ RegsSameExcept [x] s t ∧ OnlyChanges [.regs] s t

/-- `7xkk` (R91): the sum wraps; VF is not written unless x is 15 (D18). -/
def Obligations.AddImmediate : Prop :=
  ∀ (s : State) (x : Reg) (kk : Byte), ∃ t, exec (.addImm x kk) s = .next t ∧
    (t.readV x).toNat = ((s.readV x).toNat + kk.toNat) % 256 ∧ RegsSameExcept [x] s t ∧ OnlyChanges [.regs] s t

/-- `8xy0` to `8xy3` bit by bit (R92 to R95, general knowledge, log entry 13): copy, OR, AND, XOR; VF is not written unless
x is 15 (D18). -/
def Obligations.CopyAndLogic : Prop :=
  ∀ (s : State) (x y : Reg),
    (∃ t, exec (.ldReg x y) s = .next t ∧ t.readV x = s.readV y ∧ RegsSameExcept [x] s t ∧ OnlyChanges [.regs] s t) ∧
    (∃ t, exec (.orReg x y) s = .next t ∧
      (∀ j, (t.readV x).getLsbD j = ((s.readV x).getLsbD j || (s.readV y).getLsbD j)) ∧
      RegsSameExcept [x] s t ∧ OnlyChanges [.regs] s t) ∧
    (∃ t, exec (.andReg x y) s = .next t ∧
      (∀ j, (t.readV x).getLsbD j = ((s.readV x).getLsbD j && (s.readV y).getLsbD j)) ∧
      RegsSameExcept [x] s t ∧ OnlyChanges [.regs] s t) ∧
    (∃ t, exec (.xorReg x y) s = .next t ∧
      (∀ j, (t.readV x).getLsbD j = ((s.readV x).getLsbD j != (s.readV y).getLsbD j)) ∧
      RegsSameExcept [x] s t ∧ OnlyChanges [.regs] s t)

/-- `8xy4` (R96): the low byte of the exact sum, and VF the carry; with x = 15 the carry wins (R103, D12). -/
def Obligations.AddWithCarryFlag : Prop :=
  ∀ (s : State) (x y : Reg), ∃ t, exec (.addReg x y) s = .next t ∧
    (x ≠ 15 → (t.readV x).toNat = ((s.readV x).toNat + (s.readV y).toNat) % 256) ∧
    (t.readV 15).toNat = (if 255 < (s.readV x).toNat + (s.readV y).toNat then 1 else 0) ∧
    RegsSameExcept [x, 15] s t ∧ OnlyChanges [.regs] s t

/-- `8xy5` and `8xy7` (R97, R99, C1): the difference modulo 256, and VF 1 iff the minuend is strictly greater; with x = 15
the flag wins (D12). Which register is the minuend is general knowledge (log entry 13). -/
def Obligations.SubtractWithNotBorrowFlag : Prop :=
  ∀ (s : State) (x y : Reg),
    (∃ t, exec (.subReg x y) s = .next t ∧
      (x ≠ 15 → (t.readV x).toNat = ((s.readV x).toNat + 256 - (s.readV y).toNat) % 256) ∧
      (t.readV 15).toNat = (if (s.readV y).toNat < (s.readV x).toNat then 1 else 0) ∧
      RegsSameExcept [x, 15] s t ∧ OnlyChanges [.regs] s t) ∧
    (∃ t, exec (.subnReg x y) s = .next t ∧
      (x ≠ 15 → (t.readV x).toNat = ((s.readV y).toNat + 256 - (s.readV x).toNat) % 256) ∧
      (t.readV 15).toNat = (if (s.readV x).toNat < (s.readV y).toNat then 1 else 0) ∧
      RegsSameExcept [x, 15] s t ∧ OnlyChanges [.regs] s t)

/-- `8xy6` and `8xyE` (R98, R100): one position, VF the bit shifted out, computed before the shift; Vy takes no part; with
x = 15 the flag wins (D12). -/
def Obligations.ShiftsCaptureBitOut : Prop :=
  ∀ (s : State) (x y : Reg),
    (∃ t, exec (.shr x y) s = .next t ∧ (x ≠ 15 → (t.readV x).toNat = (s.readV x).toNat / 2) ∧
      (t.readV 15).toNat = (s.readV x).toNat % 2 ∧ RegsSameExcept [x, 15] s t ∧ OnlyChanges [.regs] s t) ∧
    (∃ t, exec (.shl x y) s = .next t ∧ (x ≠ 15 → (t.readV x).toNat = 2 * (s.readV x).toNat % 256) ∧
      (t.readV 15).toNat = (s.readV x).toNat / 128 ∧ RegsSameExcept [x, 15] s t ∧ OnlyChanges [.regs] s t)

/-- `Cxkk` (R101, R25, D20): some byte AND `kk`, the source consulted once. While supplied bytes are left the byte is the next
of them; otherwise it is the free byte of this draw (log entry 1). -/
def Obligations.RandomByteMasked : Prop :=
  ∀ (s : State) (x : Reg) (kk : Byte), ∃ t, ∃ b : Byte, exec (.rnd x kk) s = .next t ∧
    (∀ j, (t.readV x).getLsbD j = (b.getLsbD j && kk.getLsbD j)) ∧
    (s.rndSupply = b :: t.rndSupply ∨ s.rndSupply = [] ∧ t.rndSupply = [] ∧ b = Config.rndByte s.rndDrawn) ∧
    t.rndDrawn = s.rndDrawn + 1 ∧ RegsSameExcept [x] s t ∧ OnlyChanges [.regs, .random] s t

/-! ## Index register and memory -/

/-- `Annn` and `Fx1E` (R110, R111): zero-extension, a sum modulo 2^16, and no flag. -/
def Obligations.IndexLoadAndAdd : Prop :=
  ∀ (s : State) (nnn : Addr) (x : Reg),
    decodeWord (wordNNN 0xA nnn) = .ldI nnn ∧ decodeWord (wordXKK 0xF (regBits x) 0x1E) = .addI x ∧
    (∃ t, exec (.ldI nnn) s = .next t ∧ t.i.toNat = nnn.toNat ∧ OnlyChanges [.index] s t) ∧
    (∃ t, exec (.addI x) s = .next t ∧ t.i.toNat = (s.i.toNat + (s.readV x).toNat) % 65536 ∧ OnlyChanges [.index] s t)

/-- `Fx29` (R112; the low nibble is D16). -/
def Obligations.GlyphAddress : Prop :=
  ∀ (s : State) (x : Reg), ∃ t, exec (.ldF x) s = .next t ∧
    t.i.toNat = 0x050 + 5 * ((s.readV x).toNat % 16) ∧ OnlyChanges [.index] s t

/-- `Fx33` (R113): three decimal digits whose number is Vx at `I`, `I + 1`, `I + 2`, each address wrapped; a wrap is
reported; every other byte of memory reads as before. -/
def Obligations.BcdStoresDigits : Prop :=
  ∀ (s : State) (x : Reg), decodeWord (wordXKK 0xF (regBits x) 0x33) = .ldB x ∧
    ∃ t, exec (.ldB x) s = .next t ∧
    (t.readByte (s.effAddr 0)).toNat = (s.readV x).toNat / 100 ∧
    (t.readByte (s.effAddr 1)).toNat = (s.readV x).toNat / 10 % 10 ∧
    (t.readByte (s.effAddr 2)).toNat = (s.readV x).toNat % 10 ∧
    (∀ a, ¬StoredAt (s.effAddr 0) 3 a → t.readByte a = s.readByte a) ∧
    t.status = ⟨s.status.sovf, s.status.sunf, s.status.aw || decide (4096 ≤ s.i.toNat + 2)⟩ ∧
    OnlyChanges [.memory, .status] s t

/-- `Fx55` (R114; that `I` is unchanged is D17): V0..Vx at `I` on, each address wrapped; a wrap is reported; every other
byte of memory reads as before. -/
def Obligations.StoreRegisters : Prop :=
  ∀ (s : State) (x : Reg), ∃ t, exec (.storeRegs x) s = .next t ∧
    (∀ k : Reg, k ≤ x → t.readByte (s.effAddr k.val) = s.readV k) ∧
    (∀ a, ¬StoredAt (s.effAddr 0) (x.val + 1) a → t.readByte a = s.readByte a) ∧
    t.status = ⟨s.status.sovf, s.status.sunf, s.status.aw || decide (4096 ≤ s.i.toNat + x.val)⟩ ∧
    OnlyChanges [.memory, .status] s t

/-- `Fx65` (R115; that `I` is unchanged is D17): V0..Vx from `I` on, each address wrapped; a wrap is reported; registers
above x and all of memory read as before. -/
def Obligations.LoadRegisters : Prop :=
  ∀ (s : State) (x : Reg), ∃ t, exec (.loadRegs x) s = .next t ∧
    (∀ k : Reg, k ≤ x → t.readV k = s.readByte (s.effAddr k.val)) ∧ (∀ k : Reg, x < k → t.readV k = s.readV k) ∧
    t.status = ⟨s.status.sovf, s.status.sunf, s.status.aw || decide (4096 ≤ s.i.toNat + x.val)⟩ ∧
    OnlyChanges [.regs, .status] s t

/-- What was stored by `Fx55` is what `Fx65` loads back, into any later state whose memory and `I` are those the store left. -/
def Obligations.LoadUndoesStore : Prop :=
  ∀ (s t u : State) (x : Reg), exec (.storeRegs x) s = .next t → u.i = t.i → u.mem = t.mem →
    ∃ w, exec (.loadRegs x) u = .next w ∧ ∀ k : Reg, k ≤ x → w.readV k = s.readV k

/-! ## Display -/

/-- `00E0` (R120): every cell off; nothing else changes. That every word `0??0` is CLS, whatever its bits 11..4, is the
spec's decision D10 (log entry 7). -/
def Obligations.ClearScreen : Prop :=
  ∀ (s : State) (p q : Nibble), decodeWord (wordXYN 0x0 p q 0x0) = .cls ∧
    ∃ t, exec .cls s = .next t ∧ (∀ row col, t.pixel row col = false) ∧ OnlyChanges [.screen] s t

/-- The sprite of `Dxyn` covers a cell: some row `r < n` and column offset `c < 8` with sprite bit `7 - c` set land on it,
each coordinate reduced on its own (R121, R123). -/
def SpriteCovers (s : State) (vx vy : Byte) (n : Nat) (row : Fin 32) (col : Fin 64) : Prop :=
  ∃ r c, r < n ∧ c < 8 ∧ (s.readByte (s.effAddr r)).getLsbD (7 - c) = true ∧
    (vy.toNat + r) % 32 = row.val ∧ (vx.toNat + c) % 64 = col.val

/-- `Dxyn` (R121, R124; the bit order is general knowledge, log entry 11, and x = 15 or y = 15 is D14): exactly the covered
cells are toggled; VF is 1 iff one of them was on; an address of 4096 or more is reported; nothing else changes. -/
def Obligations.DrawXorsSprite : Prop :=
  ∀ (s : State) (x y : Reg) (n : Nibble), ∃ t, exec (.drw x y n) s = .next t ∧
    (∀ row col, (SpriteCovers s (s.readV x) (s.readV y) n.toNat row col → t.pixel row col = !s.pixel row col) ∧
      (¬SpriteCovers s (s.readV x) (s.readV y) n.toNat row col → t.pixel row col = s.pixel row col)) ∧
    (((∃ row col, SpriteCovers s (s.readV x) (s.readV y) n.toNat row col ∧ s.pixel row col = true) → t.readV 15 = 1) ∧
      ((¬∃ row col, SpriteCovers s (s.readV x) (s.readV y) n.toNat row col ∧ s.pixel row col = true) → t.readV 15 = 0)) ∧
    t.status = ⟨s.status.sovf, s.status.sunf, s.status.aw || decide (0 < n.toNat ∧ 4096 ≤ s.i.toNat + n.toNat - 1)⟩ ∧
    RegsSameExcept [15] s t ∧ OnlyChanges [.regs, .screen, .status] s t

/-- "Second XOR undoes the first" (S6): the same sprite drawn again at the same origin leaves every cell as it was before the
first drawing, and VF is 1 if the first drawing turned a cell on. -/
def Obligations.DrawTwiceRestores : Prop :=
  ∀ (s t u : State) (x y : Reg) (n : Nibble), exec (.drw x y n) s = .next t →
    (∀ row col, u.pixel row col = t.pixel row col) → (∀ a, u.readByte a = t.readByte a) → u.i = t.i →
    u.readV x = s.readV x → u.readV y = s.readV y →
    ∃ w, exec (.drw x y n) u = .next w ∧ (∀ row col, w.pixel row col = s.pixel row col) ∧
      ((∃ row col, s.pixel row col = false ∧ t.pixel row col = true) → w.readV 15 = 1)

/-! ## Keypad and timers -/

/-- `Fx0A` with a key down (R132): the lowest-numbered key goes to Vx. -/
def Obligations.WaitForKeyStoresLowest : Prop :=
  ∀ (s : State) (x : Reg) (k : Key), s.keyDown k = true → (∀ j : Key, j < k → s.keyDown j = false) →
    ∃ t, exec (.ldVxK x) s = .next t ∧ (t.readV x).toNat = k.val ∧ RegsSameExcept [x] s t ∧ OnlyChanges [.regs] s t

/-- `Fx0A` with no key down (R132, R167): the roll-back is `pc - 2`, so a whole cycle leaves `pc` where it began, ticks the
timers and writes no register. -/
def Obligations.WaitForKeyWaits : Prop :=
  (∀ (s : State) (x : Reg), (∀ k, s.keyDown k = false) →
    ∃ t, exec (.ldVxK x) s = .next t ∧ t.pc.toNat = (s.pc.toNat + 65534) % 65536 ∧ OnlyChanges [.pc] s t) ∧
  ∀ (s : State) (x : Reg), decodeWord (s.wordAt s.pc.toNat) = .ldVxK x → s.keySchedule.headD s.keypad = 0 →
    ∃ t, step s = .next t ∧ t.pc = s.pc ∧ t.dt.toNat = s.dt.toNat - 1 ∧ t.st.toNat = s.st.toNat - 1 ∧
      OnlyChanges [.keypad, .keySchedule, .run, .status, .ir, .delay, .sound] s t

/-- `Fx07`, `Fx15`, `Fx18` (R133 to R135; which does what is general knowledge, log entry 13). -/
def Obligations.TimerTransfers : Prop :=
  ∀ (s : State) (x : Reg),
    (∃ t, exec (.ldVxDt x) s = .next t ∧ t.readV x = s.dt ∧ RegsSameExcept [x] s t ∧ OnlyChanges [.regs] s t) ∧
    (∃ t, exec (.ldDtVx x) s = .next t ∧ t.dt = s.readV x ∧ OnlyChanges [.delay] s t) ∧
    (∃ t, exec (.ldStVx x) s = .next t ∧ t.st = s.readV x ∧ OnlyChanges [.sound] s t)

/-- Both timers over a whole cycle (R17, R18, R136): one less while nonzero, whatever ran; a timer the instruction sets to
`v` ends the cycle at `v - 1` (0 for 0). -/
def Obligations.TimersOverACycle : Prop :=
  ∀ (s t : State) (i : Instr), decodeWord (s.wordAt s.pc.toNat) = i → step s = .next t →
    ((∀ x, i ≠ .ldDtVx x) → t.dt.toNat = s.dt.toNat - 1) ∧ (∀ x, i = .ldDtVx x → t.dt.toNat = (s.readV x).toNat - 1) ∧
    ((∀ x, i ≠ .ldStVx x) → t.st.toNat = s.st.toNat - 1) ∧ (∀ x, i = .ldStVx x → t.st.toNat = (s.readV x).toNat - 1)

/-! ## Whole-machine rules -/

/-- VF (R12, D18): the six flag writers leave it 0 or 1; every other instruction leaves it alone unless its x field is 15. -/
def Obligations.FlagWriters : Prop :=
  ∀ (i : Instr) (s t : State), exec i s = .next t →
    (i.writesFlag = true → t.readV 15 = 0 ∨ t.readV 15 = 1) ∧
    (i.writesFlag = false → i.xField ≠ some 15 → t.readV 15 = s.readV 15)

/-- `I`, the framebuffer and memory change only under the instructions the spec lists for each (R13, R20, R30). -/
def Obligations.IndexScreenMemoryWriters : Prop :=
  ∀ (i : Instr) (s t : State), exec i s = .next t →
    (i.writesIndex = false → t.i = s.i) ∧
    (i.writesScreen = false → ∀ row col, t.pixel row col = s.pixel row col) ∧
    (i.writesMemory = false → ∀ a, t.readByte a = s.readByte a)

/-- The call stack changes only under `2nnn` and its depth only under `2nnn` and `00EE` (R15, R16), and `pc` keeps the
advanced value except under the instructions R14 lists. -/
def Obligations.StackAndPcWriters : Prop :=
  ∀ (i : Instr) (s t : State), exec i s = .next t →
    ((∀ nnn, i ≠ .call nnn) → ∀ k : Fin 16, t.stack[k] = s.stack[k]) ∧
    ((∀ nnn, i ≠ .call nnn) → i ≠ .ret → t.sp = s.sp) ∧ (i.writesPc = false → t.pc = s.pc)

/-- No instruction writes the keypad, `IR`, `run` or the key schedule (R19, R29, R79), and only `Cxkk` consults the random
source (R25, D20). -/
def Obligations.NeverWrittenByInstructions : Prop :=
  ∀ (i : Instr) (s t : State), exec i s = .next t →
    t.keypad = s.keypad ∧ t.ir = s.ir ∧ t.run = s.run ∧ t.keySchedule = s.keySchedule ∧
    ((∀ x kk, i ≠ .rnd x kk) → t.rndSupply = s.rndSupply ∧ t.rndDrawn = s.rndDrawn)

/-- The status of a cycle, exactly (R140 to R145, R147; that the stored 16-bit values decide is D6): overflow iff a call on
a full stack, underflow iff a return on an empty one, wrap iff the fetch or a data access of the instruction reaches 4096. -/
def Obligations.StatusOfACycle : Prop :=
  ∀ (s t : State) (i : Instr), decodeWord (s.wordAt s.pc.toNat) = i → step s = .next t →
    (t.status.sovf = true ↔ (∃ nnn, i = .call nnn) ∧ s.sp.val = 16) ∧
    (t.status.sunf = true ↔ i = .ret ∧ s.sp.val = 0) ∧
    (t.status.aw = true ↔ 0x0FFF ≤ s.pc.toNat ∨
      (∃ x y n, i = .drw x y n ∧ 0 < n.toNat ∧ 4096 ≤ s.i.toNat + n.toNat - 1) ∨
      (∃ x, i = .ldB x ∧ 4096 ≤ s.i.toNat + 2) ∨
      (∃ x : Reg, (i = .storeRegs x ∨ i = .loadRegs x) ∧ 4096 ≤ s.i.toNat + x.val))

/-- The values a cycle can return (R145, D2): overflow is 1, underflow 2, wrap 4; "3 and 7 cannot occur". -/
def Obligations.StatusValues : Prop :=
  ∀ s t : State, step s = .next t →
    t.statusValue.toNat = (if t.status.sovf then 1 else 0) + (if t.status.sunf then 2 else 0) + (if t.status.aw then 4 else 0) ∧
    t.statusValue.toNat ∈ [0, 1, 2, 4, 5, 6]

/-- The model's sticky bit (U1, log entry 4) records exactly the stack conditions of the cycles run. -/
def Obligations.StickyBitRecordsStackFaults : Prop :=
  ∀ s t : State, step s = .next t →
    t.stackFaultSeen = (s.stackFaultSeen || t.status.sovf || t.status.sunf)

/-- Every step keeps the invariant: canonical memory, a legal status value, the sticky bit, timers below 255. -/
def Obligations.StepKeepsInvariant : Prop :=
  ∀ s t : State, s.Inv → step s = .next t → t.Inv

/-- The invariant holds right after reset. -/
def Obligations.ResetMeetsInvariant : Prop :=
  State.reset.Inv ∧ State.reset.Safe

/-- A cycle depends on neither the old `IR`, nor `run`, nor the last status, nor the sticky bit (R21, R22, R23): the same
state results, but for the sticky bit. -/
def Obligations.CycleIgnoresItsOutputs : Prop :=
  ∀ (s t : State) (w : Word) (r : RunState) (st : Status) (f : Bool), step s = .next t →
    ∃ u, step { s with ir := w, run := r, status := st, stackFaultSeen := f } = .next u ∧
      { u with stackFaultSeen := t.stackFaultSeen } = t

/-- Bits 15..12 of `I` show in nothing but `status.AW` and `I` itself (R13, D7; log entry 6): two states whose `I` agree
modulo 4096 give, under any instruction, states that agree but for the AW bit and those bits of `I`. -/
def Obligations.IndexUpperBitsUnobservable : Prop :=
  ∀ (i : Instr) (s t : State) (w : Word), w.toNat % 4096 = s.i.toNat % 4096 → exec i s = .next t →
    ∃ u, exec i { s with i := w } = .next u ∧ u.i.toNat % 4096 = t.i.toNat % 4096 ∧
      { u with i := t.i, status := { u.status with aw := t.status.aw } } = t
end

