-- ==== Sys2Proof/Laws/Decode.lean ====
section
/-! SUPPORT. The fields of a word built by the encoder's formats (spec/30_encoding.md R51, R52), and every word as four
nibbles. -/

namespace Sys2Proof

/-! ## A register index and its bits -/

@[simp] theorem toFin_regBits (r : Reg) : (regBits r).toFin = r := rfl

@[simp] theorem toNat_regBits (r : Reg) : (regBits r).toNat = r.val := rfl

@[simp] theorem regBits_toFin (b : Nibble) : regBits b.toFin = b := rfl

/-! ## Numbers of the formats and fields -/

/-- An append as a number: the first part is the high one. -/
theorem toNat_append_add {m n : Nat} (a : BitVec m) (b : BitVec n) : (a ++ b).toNat = 2 ^ n * a.toNat + b.toNat := by
  rw [BitVec.toNat_append, Nat.shiftLeft_eq, Nat.mul_comm, ← Nat.two_pow_add_eq_or_of_lt b.isLt]

theorem toNat_wordXYN (a b c d : Nibble) :
    (wordXYN a b c d).toNat = 4096 * a.toNat + 256 * b.toNat + 16 * c.toNat + d.toNat := by
  simp only [wordXYN, toNat_append_add]; omega

theorem toNat_wordXKK (a b : Nibble) (kk : Byte) :
    (wordXKK a b kk).toNat = 4096 * a.toNat + 256 * b.toNat + kk.toNat := by
  simp only [wordXKK, toNat_append_add]; omega

theorem toNat_wordNNN (a : Nibble) (nnn : Addr) : (wordNNN a nnn).toNat = 4096 * a.toNat + nnn.toNat := by
  simp only [wordNNN, toNat_append_add]; omega

/-- The word of two bytes as a number: the first byte is the high one (R34). -/
theorem toNat_wordOfBytes (hi lo : Byte) : (wordOfBytes hi lo).toNat = 256 * hi.toNat + lo.toNat := by
  simp only [wordOfBytes, toNat_append_add]; omega

theorem toNat_opOf (w : Word) : (opOf w).toNat = w.toNat / 4096 := by
  have := w.isLt
  simp only [opOf, BitVec.extractLsb'_toNat, Nat.shiftRight_eq_div_pow]; omega

theorem toNat_xBits (w : Word) : (xBits w).toNat = w.toNat / 256 % 16 := by
  simp only [xBits, BitVec.extractLsb'_toNat, Nat.shiftRight_eq_div_pow]

theorem toNat_yBits (w : Word) : (yBits w).toNat = w.toNat / 16 % 16 := by
  simp only [yBits, BitVec.extractLsb'_toNat, Nat.shiftRight_eq_div_pow]

theorem toNat_nOf (w : Word) : (nOf w).toNat = w.toNat % 16 := by
  simp [nOf, BitVec.extractLsb'_toNat]

theorem toNat_kkOf (w : Word) : (kkOf w).toNat = w.toNat % 256 := by
  simp [kkOf, BitVec.extractLsb'_toNat]

theorem toNat_nnnOf (w : Word) : (nnnOf w).toNat = w.toNat % 4096 := by
  simp [nnnOf, BitVec.extractLsb'_toNat]

/-! ## Fields of a built word -/

section
variable (a b c d : Nibble) (kk : Byte) (nnn : Addr)

@[simp] theorem opOf_wordXYN : opOf (wordXYN a b c d) = a := by
  apply BitVec.eq_of_toNat_eq; rw [toNat_opOf, toNat_wordXYN]
  have := b.isLt; have := c.isLt; have := d.isLt; omega

@[simp] theorem xOf_wordXYN : xOf (wordXYN a b c d) = b.toFin := by
  refine congrArg BitVec.toFin (BitVec.eq_of_toNat_eq ?_); rw [toNat_xBits, toNat_wordXYN]
  have := b.isLt; have := c.isLt; have := d.isLt; omega

@[simp] theorem yOf_wordXYN : yOf (wordXYN a b c d) = c.toFin := by
  refine congrArg BitVec.toFin (BitVec.eq_of_toNat_eq ?_); rw [toNat_yBits, toNat_wordXYN]
  have := c.isLt; have := d.isLt; omega

@[simp] theorem nOf_wordXYN : nOf (wordXYN a b c d) = d := by
  apply BitVec.eq_of_toNat_eq; rw [toNat_nOf, toNat_wordXYN]
  have := d.isLt; omega

@[simp] theorem opOf_wordXKK : opOf (wordXKK a b kk) = a := by
  apply BitVec.eq_of_toNat_eq; rw [toNat_opOf, toNat_wordXKK]
  have := b.isLt; have := kk.isLt; omega

@[simp] theorem xOf_wordXKK : xOf (wordXKK a b kk) = b.toFin := by
  refine congrArg BitVec.toFin (BitVec.eq_of_toNat_eq ?_); rw [toNat_xBits, toNat_wordXKK]
  have := b.isLt; have := kk.isLt; omega

@[simp] theorem kkOf_wordXKK : kkOf (wordXKK a b kk) = kk := by
  apply BitVec.eq_of_toNat_eq; rw [toNat_kkOf, toNat_wordXKK]
  have := kk.isLt; omega

theorem toNat_nOf_wordXKK : (nOf (wordXKK a b kk)).toNat = kk.toNat % 16 := by
  rw [toNat_nOf, toNat_wordXKK]; omega

@[simp] theorem opOf_wordNNN : opOf (wordNNN a nnn) = a := by
  apply BitVec.eq_of_toNat_eq; rw [toNat_opOf, toNat_wordNNN]
  have := nnn.isLt; omega

@[simp] theorem nnnOf_wordNNN : nnnOf (wordNNN a nnn) = nnn := by
  apply BitVec.eq_of_toNat_eq; rw [toNat_nnnOf, toNat_wordNNN]
  have := nnn.isLt; omega

theorem toNat_nOf_wordNNN : (nOf (wordNNN a nnn)).toNat = nnn.toNat % 16 := by
  rw [toNat_nOf, toNat_wordNNN]; omega

end

/-! ## A word from its fields -/

theorem wordXYN_fields (w : Word) : wordXYN (opOf w) (xBits w) (yBits w) (nOf w) = w := by
  apply BitVec.eq_of_toNat_eq
  rw [toNat_wordXYN, toNat_opOf, toNat_xBits, toNat_yBits, toNat_nOf]; omega

theorem wordXKK_fields (w : Word) : wordXKK (opOf w) (xBits w) (kkOf w) = w := by
  apply BitVec.eq_of_toNat_eq
  rw [toNat_wordXKK, toNat_opOf, toNat_xBits, toNat_kkOf]; omega

theorem wordNNN_fields (w : Word) : wordNNN (opOf w) (nnnOf w) = w := by
  apply BitVec.eq_of_toNat_eq
  rw [toNat_wordNNN, toNat_opOf, toNat_nnnOf]; omega

/-- The two bytes of a word put it together again (R50). -/
@[simp] theorem wordOfBytes_hiByte_loByte (w : Word) : wordOfBytes (hiByte w) (loByte w) = w := by
  have := w.isLt
  apply BitVec.eq_of_toNat_eq
  simp only [toNat_wordOfBytes, hiByte, loByte, BitVec.extractLsb'_toNat, Nat.shiftRight_eq_div_pow]
  omega

/-! ## Masks of the opcode table (R61): what a masked comparison says of the fields -/

theorem wordXYN_and (a b c d a' b' c' d' : Nibble) :
    wordXYN a b c d &&& wordXYN a' b' c' d' = wordXYN (a &&& a') (b &&& b') (c &&& c') (d &&& d') := by
  simp only [wordXYN]
  erw [BitVec.and_append, BitVec.and_append, BitVec.and_append]

theorem nibble_and_15 (n : Nibble) : n &&& 15#4 = n := by
  rw [show (15#4 : Nibble) = BitVec.allOnes 4 by decide, BitVec.and_allOnes]

@[simp] theorem xBits_wordXYN (a b c d : Nibble) : xBits (wordXYN a b c d) = b :=
  BitVec.toFin_inj.1 (xOf_wordXYN a b c d)

@[simp] theorem yBits_wordXYN (a b c d : Nibble) : yBits (wordXYN a b c d) = c :=
  BitVec.toFin_inj.1 (yOf_wordXYN a b c d)

/-- Two words of four nibbles are equal when their nibbles are. -/
theorem wordXYN_inj {a b c d a' b' c' d' : Nibble} :
    wordXYN a b c d = wordXYN a' b' c' d' ↔ a = a' ∧ b = b' ∧ c = c' ∧ d = d' := by
  constructor
  · intro h
    exact ⟨by simpa using congrArg opOf h, by simpa using congrArg xBits h, by simpa using congrArg yBits h,
      by simpa using congrArg nOf h⟩
  · rintro ⟨rfl, rfl, rfl, rfl⟩; rfl

/-- Mask 0xF000 examines the family nibble alone. -/
theorem mask_F000 (w : Word) (p : Nibble) : (w &&& 0xF000 == wordXYN p 0 0 0) = (opOf w == p) := by
  conv_lhs => rw [← wordXYN_fields w, show (0xF000 : Word) = wordXYN 15 0 0 0 by decide, wordXYN_and]
  rw [Bool.eq_iff_iff]; simp [wordXYN_inj, nibble_and_15]

/-- Mask 0xF00F examines the family nibble and the bottom nibble. -/
theorem mask_F00F (w : Word) (p q : Nibble) :
    (w &&& 0xF00F == wordXYN p 0 0 q) = (opOf w == p && nOf w == q) := by
  conv_lhs => rw [← wordXYN_fields w, show (0xF00F : Word) = wordXYN 15 0 0 15 by decide, wordXYN_and]
  rw [Bool.eq_iff_iff]; simp [wordXYN_inj, nibble_and_15]

/-- Mask 0xF0FF examines the family nibble and the bottom byte. -/
theorem mask_F0FF (w : Word) (p r q : Nibble) :
    (w &&& 0xF0FF == wordXYN p 0 r q) = (opOf w == p && (yBits w == r && nOf w == q)) := by
  conv_lhs => rw [← wordXYN_fields w, show (0xF0FF : Word) = wordXYN 15 0 15 15 by decide, wordXYN_and]
  rw [Bool.eq_iff_iff]; simp [wordXYN_inj, nibble_and_15]

/-- The bottom byte is the two bottom nibbles. -/
theorem toNat_kkOf_nibbles (w : Word) : (kkOf w).toNat = 16 * (yBits w).toNat + (nOf w).toNat := by
  rw [toNat_kkOf, toNat_yBits, toNat_nOf]; omega

end Sys2Proof
end

