-- ==== Sys2Proof/Laws/Memory.lean ====
section
/-! SUPPORT. The laws of the byte memory: a read after a write, and the canonical form that every write keeps
(spec/20_memory.md R32, R33). -/

namespace Sys2Proof.Machine

/-! ## Lists of cells -/

/-- A list that does not list `a` gives its reset contents. -/
theorem readCells_of_unlisted {cs : List Host.Cell} {a : Nat} (h : ∀ c ∈ cs, c.1 ≠ a) : readCells cs a = resetByte a := by
  induction cs with
  | nil => rfl
  | cons c cs ih =>
    rw [readCells, if_neg (h c (by simp))]
    exact ih fun d hd => h d (by simp [hd])

theorem readCells_cellOf_append {a : Nat} (b : Byte) {cs : List Host.Cell} (h : ∀ c ∈ cs, c.1 ≠ a) :
    readCells (cellOf a b ++ cs) a = b := by
  unfold cellOf
  split
  · simpa [readCells_of_unlisted h] using ‹b = resetByte a›.symm
  · simp [readCells]

theorem readCells_cellOf_append_ne {a a' : Nat} (b : Byte) (cs : List Host.Cell) (h : a' ≠ a) :
    readCells (cellOf a b ++ cs) a' = readCells cs a' := by
  unfold cellOf
  split <;> simp [readCells, h.symm]

theorem mem_cellOf {a : Nat} {b : Byte} {c : Host.Cell} (h : c ∈ cellOf a b) : c = (a, b) ∧ b ≠ resetByte a := by
  unfold cellOf at h
  split at h
  · simp at h
  · exact ⟨by simpa using h, ‹_›⟩

/-- A cell of the list after placing one is the cell placed, or a cell of the list before. -/
theorem mem_placeCell {cs : List Host.Cell} {a : Nat} {b : Byte} {c : Host.Cell} (h : c ∈ placeCell cs a b) :
    (c = (a, b) ∧ b ≠ resetByte a) ∨ c ∈ cs := by
  induction cs with
  | nil => exact .inl (mem_cellOf h)
  | cons d cs ih =>
    simp only [placeCell] at h
    split at h
    · exact (List.mem_append.1 h).imp mem_cellOf id
    · rcases List.mem_cons.1 h with h | h
      · exact .inr (by simp [h])
      · exact (ih h).imp_right (List.mem_cons_of_mem _)

theorem readCells_placeCell_same {cs : List Host.Cell} {a : Nat} (b : Byte) (h : ∀ c ∈ cs, c.1 ≠ a) :
    readCells (placeCell cs a b) a = b := by
  induction cs with
  | nil => simpa [placeCell] using readCells_cellOf_append b h
  | cons d cs ih =>
    simp only [placeCell]
    split
    · exact readCells_cellOf_append b h
    · rw [readCells, if_neg (h d (by simp))]
      exact ih fun c hc => h c (by simp [hc])

theorem readCells_placeCell_ne (cs : List Host.Cell) {a a' : Nat} (b : Byte) (h : a' ≠ a) :
    readCells (placeCell cs a b) a' = readCells cs a' := by
  induction cs with
  | nil => simpa [placeCell] using readCells_cellOf_append_ne b [] h
  | cons d cs ih =>
    simp only [placeCell]
    split
    · exact readCells_cellOf_append_ne b _ h
    · simp only [readCells, ih]

theorem readCells_filter_ne (cs : List Host.Cell) {a a' : Nat} (h : a' ≠ a) :
    readCells (cs.filter fun c => c.1 != a) a' = readCells cs a' := by
  induction cs with
  | nil => rfl
  | cons d cs ih =>
    by_cases hd : d.1 = a
    · have : ¬d.1 = a' := fun h' => h (h'.symm.trans hd)
      simp [hd, readCells, ih, h.symm]
    · simp [hd, readCells, ih]

/-- Placing a cell keeps the list rising. -/
theorem pairwise_placeCell {cs : List Host.Cell} (a : Nat) (b : Byte) (h : ∀ c ∈ cs, c.1 ≠ a)
    (hs : cs.Pairwise fun c d => c.1 < d.1) : (placeCell cs a b).Pairwise fun c d => c.1 < d.1 := by
  induction cs with
  | nil => simp [placeCell, cellOf]; split <;> simp
  | cons d cs ih =>
    obtain ⟨hd, hcs⟩ := List.pairwise_cons.1 hs
    simp only [placeCell]
    split
    · rename_i hlt
      refine List.pairwise_append.2 ⟨by unfold cellOf; split <;> simp, hs, fun c hc e he => ?_⟩
      obtain ⟨rfl, -⟩ := mem_cellOf hc
      rcases List.mem_cons.1 he with rfl | he
      · exact hlt
      · exact Nat.lt_trans hlt (hd e he)
    · rename_i hge
      refine List.pairwise_cons.2 ⟨fun c hc => ?_, ih (fun c hc => h c (by simp [hc])) hcs⟩
      rcases mem_placeCell hc with ⟨rfl, -⟩ | hc
      · have := h d (by simp)
        show d.1 < a
        omega
      · exact hd c hc

/-! ## Memory -/

/-- A read of an address just written gives the byte written. -/
@[simp] theorem Memory.read_write_same (m : Memory) (a : Nat) (b : Byte) : (m.write a b).read a = b :=
  readCells_placeCell_same b (by simp)

/-- A write leaves every other address alone. -/
theorem Memory.read_write_ne (m : Memory) {a a' : Nat} (b : Byte) (h : a' ≠ a) :
    (m.write a b).read a' = m.read a' :=
  (readCells_placeCell_ne _ b h).trans (readCells_filter_ne m.cells h)

/-- A read after a write, in one equation. -/
theorem Memory.read_write (m : Memory) (a a' : Nat) (b : Byte) :
    (m.write a b).read a' = if a' = a then b else m.read a' := by
  split
  · subst a'; exact m.read_write_same a b
  · exact m.read_write_ne b ‹_›

/-- A write keeps the canonical form. -/
theorem Memory.wf_write {m : Memory} (h : m.wf) {a : Nat} (ha : a < Config.memSize) (b : Byte) : (m.write a b).wf := by
  refine ⟨pairwise_placeCell a b (by simp) (h.1.filter _), fun c hc => ?_⟩
  rcases mem_placeCell hc with ⟨rfl, hb⟩ | hc
  · exact ⟨ha, hb⟩
  · exact h.2 c (List.mem_filter.1 hc).1

/-- Memory after reset lists nothing, which is canonical. -/
theorem Memory.wf_empty : Memory.wf ⟨[]⟩ := ⟨List.Pairwise.nil, by simp⟩

/-- An address that no cell lists reads as its reset contents. -/
@[simp] theorem Memory.read_empty (a : Nat) : Memory.read ⟨[]⟩ a = resetByte a := rfl

end Sys2Proof.Machine
end

