-- ==== Sys2Proof/Laws/State.lean ====
section
/-! SUPPORT. One lemma per field per elementary update of the state, true by rfl, so that no later proof unfolds a record
update. The updates that only sometimes change a field are in Laws/Ops.lean. -/

namespace Sys2Proof.Machine

variable (s : State)

/-! ### setI -/

@[simp] theorem State.setI_v (w : Word) : (s.setI w).v = s.v := rfl
@[simp] theorem State.setI_i (w : Word) : (s.setI w).i = w := rfl
@[simp] theorem State.setI_pc (w : Word) : (s.setI w).pc = s.pc := rfl
@[simp] theorem State.setI_stack (w : Word) : (s.setI w).stack = s.stack := rfl
@[simp] theorem State.setI_sp (w : Word) : (s.setI w).sp = s.sp := rfl
@[simp] theorem State.setI_dt (w : Word) : (s.setI w).dt = s.dt := rfl
@[simp] theorem State.setI_st (w : Word) : (s.setI w).st = s.st := rfl
@[simp] theorem State.setI_keypad (w : Word) : (s.setI w).keypad = s.keypad := rfl
@[simp] theorem State.setI_fb (w : Word) : (s.setI w).fb = s.fb := rfl
@[simp] theorem State.setI_ir (w : Word) : (s.setI w).ir = s.ir := rfl
@[simp] theorem State.setI_mem (w : Word) : (s.setI w).mem = s.mem := rfl
@[simp] theorem State.setI_run (w : Word) : (s.setI w).run = s.run := rfl
@[simp] theorem State.setI_status (w : Word) : (s.setI w).status = s.status := rfl
@[simp] theorem State.setI_keySchedule (w : Word) : (s.setI w).keySchedule = s.keySchedule := rfl
@[simp] theorem State.setI_rndSupply (w : Word) : (s.setI w).rndSupply = s.rndSupply := rfl
@[simp] theorem State.setI_rndDrawn (w : Word) : (s.setI w).rndDrawn = s.rndDrawn := rfl
@[simp] theorem State.setI_stackFaultSeen (w : Word) : (s.setI w).stackFaultSeen = s.stackFaultSeen := rfl

/-! ### setPc -/

@[simp] theorem State.setPc_v (w : Word) : (s.setPc w).v = s.v := rfl
@[simp] theorem State.setPc_i (w : Word) : (s.setPc w).i = s.i := rfl
@[simp] theorem State.setPc_pc (w : Word) : (s.setPc w).pc = w := rfl
@[simp] theorem State.setPc_stack (w : Word) : (s.setPc w).stack = s.stack := rfl
@[simp] theorem State.setPc_sp (w : Word) : (s.setPc w).sp = s.sp := rfl
@[simp] theorem State.setPc_dt (w : Word) : (s.setPc w).dt = s.dt := rfl
@[simp] theorem State.setPc_st (w : Word) : (s.setPc w).st = s.st := rfl
@[simp] theorem State.setPc_keypad (w : Word) : (s.setPc w).keypad = s.keypad := rfl
@[simp] theorem State.setPc_fb (w : Word) : (s.setPc w).fb = s.fb := rfl
@[simp] theorem State.setPc_ir (w : Word) : (s.setPc w).ir = s.ir := rfl
@[simp] theorem State.setPc_mem (w : Word) : (s.setPc w).mem = s.mem := rfl
@[simp] theorem State.setPc_run (w : Word) : (s.setPc w).run = s.run := rfl
@[simp] theorem State.setPc_status (w : Word) : (s.setPc w).status = s.status := rfl
@[simp] theorem State.setPc_keySchedule (w : Word) : (s.setPc w).keySchedule = s.keySchedule := rfl
@[simp] theorem State.setPc_rndSupply (w : Word) : (s.setPc w).rndSupply = s.rndSupply := rfl
@[simp] theorem State.setPc_rndDrawn (w : Word) : (s.setPc w).rndDrawn = s.rndDrawn := rfl
@[simp] theorem State.setPc_stackFaultSeen (w : Word) : (s.setPc w).stackFaultSeen = s.stackFaultSeen := rfl

/-! ### setDt -/

@[simp] theorem State.setDt_v (b : Byte) : (s.setDt b).v = s.v := rfl
@[simp] theorem State.setDt_i (b : Byte) : (s.setDt b).i = s.i := rfl
@[simp] theorem State.setDt_pc (b : Byte) : (s.setDt b).pc = s.pc := rfl
@[simp] theorem State.setDt_stack (b : Byte) : (s.setDt b).stack = s.stack := rfl
@[simp] theorem State.setDt_sp (b : Byte) : (s.setDt b).sp = s.sp := rfl
@[simp] theorem State.setDt_dt (b : Byte) : (s.setDt b).dt = b := rfl
@[simp] theorem State.setDt_st (b : Byte) : (s.setDt b).st = s.st := rfl
@[simp] theorem State.setDt_keypad (b : Byte) : (s.setDt b).keypad = s.keypad := rfl
@[simp] theorem State.setDt_fb (b : Byte) : (s.setDt b).fb = s.fb := rfl
@[simp] theorem State.setDt_ir (b : Byte) : (s.setDt b).ir = s.ir := rfl
@[simp] theorem State.setDt_mem (b : Byte) : (s.setDt b).mem = s.mem := rfl
@[simp] theorem State.setDt_run (b : Byte) : (s.setDt b).run = s.run := rfl
@[simp] theorem State.setDt_status (b : Byte) : (s.setDt b).status = s.status := rfl
@[simp] theorem State.setDt_keySchedule (b : Byte) : (s.setDt b).keySchedule = s.keySchedule := rfl
@[simp] theorem State.setDt_rndSupply (b : Byte) : (s.setDt b).rndSupply = s.rndSupply := rfl
@[simp] theorem State.setDt_rndDrawn (b : Byte) : (s.setDt b).rndDrawn = s.rndDrawn := rfl
@[simp] theorem State.setDt_stackFaultSeen (b : Byte) : (s.setDt b).stackFaultSeen = s.stackFaultSeen := rfl

/-! ### setSt -/

@[simp] theorem State.setSt_v (b : Byte) : (s.setSt b).v = s.v := rfl
@[simp] theorem State.setSt_i (b : Byte) : (s.setSt b).i = s.i := rfl
@[simp] theorem State.setSt_pc (b : Byte) : (s.setSt b).pc = s.pc := rfl
@[simp] theorem State.setSt_stack (b : Byte) : (s.setSt b).stack = s.stack := rfl
@[simp] theorem State.setSt_sp (b : Byte) : (s.setSt b).sp = s.sp := rfl
@[simp] theorem State.setSt_dt (b : Byte) : (s.setSt b).dt = s.dt := rfl
@[simp] theorem State.setSt_st (b : Byte) : (s.setSt b).st = b := rfl
@[simp] theorem State.setSt_keypad (b : Byte) : (s.setSt b).keypad = s.keypad := rfl
@[simp] theorem State.setSt_fb (b : Byte) : (s.setSt b).fb = s.fb := rfl
@[simp] theorem State.setSt_ir (b : Byte) : (s.setSt b).ir = s.ir := rfl
@[simp] theorem State.setSt_mem (b : Byte) : (s.setSt b).mem = s.mem := rfl
@[simp] theorem State.setSt_run (b : Byte) : (s.setSt b).run = s.run := rfl
@[simp] theorem State.setSt_status (b : Byte) : (s.setSt b).status = s.status := rfl
@[simp] theorem State.setSt_keySchedule (b : Byte) : (s.setSt b).keySchedule = s.keySchedule := rfl
@[simp] theorem State.setSt_rndSupply (b : Byte) : (s.setSt b).rndSupply = s.rndSupply := rfl
@[simp] theorem State.setSt_rndDrawn (b : Byte) : (s.setSt b).rndDrawn = s.rndDrawn := rfl
@[simp] theorem State.setSt_stackFaultSeen (b : Byte) : (s.setSt b).stackFaultSeen = s.stackFaultSeen := rfl

/-! ### writeV -/

@[simp] theorem State.writeV_v (r : Reg) (b : Byte) : (s.writeV r b).v = s.v.set r b := rfl
@[simp] theorem State.writeV_i (r : Reg) (b : Byte) : (s.writeV r b).i = s.i := rfl
@[simp] theorem State.writeV_pc (r : Reg) (b : Byte) : (s.writeV r b).pc = s.pc := rfl
@[simp] theorem State.writeV_stack (r : Reg) (b : Byte) : (s.writeV r b).stack = s.stack := rfl
@[simp] theorem State.writeV_sp (r : Reg) (b : Byte) : (s.writeV r b).sp = s.sp := rfl
@[simp] theorem State.writeV_dt (r : Reg) (b : Byte) : (s.writeV r b).dt = s.dt := rfl
@[simp] theorem State.writeV_st (r : Reg) (b : Byte) : (s.writeV r b).st = s.st := rfl
@[simp] theorem State.writeV_keypad (r : Reg) (b : Byte) : (s.writeV r b).keypad = s.keypad := rfl
@[simp] theorem State.writeV_fb (r : Reg) (b : Byte) : (s.writeV r b).fb = s.fb := rfl
@[simp] theorem State.writeV_ir (r : Reg) (b : Byte) : (s.writeV r b).ir = s.ir := rfl
@[simp] theorem State.writeV_mem (r : Reg) (b : Byte) : (s.writeV r b).mem = s.mem := rfl
@[simp] theorem State.writeV_run (r : Reg) (b : Byte) : (s.writeV r b).run = s.run := rfl
@[simp] theorem State.writeV_status (r : Reg) (b : Byte) : (s.writeV r b).status = s.status := rfl
@[simp] theorem State.writeV_keySchedule (r : Reg) (b : Byte) : (s.writeV r b).keySchedule = s.keySchedule := rfl
@[simp] theorem State.writeV_rndSupply (r : Reg) (b : Byte) : (s.writeV r b).rndSupply = s.rndSupply := rfl
@[simp] theorem State.writeV_rndDrawn (r : Reg) (b : Byte) : (s.writeV r b).rndDrawn = s.rndDrawn := rfl
@[simp] theorem State.writeV_stackFaultSeen (r : Reg) (b : Byte) : (s.writeV r b).stackFaultSeen = s.stackFaultSeen := rfl

/-! ### putByte -/

@[simp] theorem State.putByte_v (ea : Nat) (b : Byte) : (s.putByte ea b).v = s.v := rfl
@[simp] theorem State.putByte_i (ea : Nat) (b : Byte) : (s.putByte ea b).i = s.i := rfl
@[simp] theorem State.putByte_pc (ea : Nat) (b : Byte) : (s.putByte ea b).pc = s.pc := rfl
@[simp] theorem State.putByte_stack (ea : Nat) (b : Byte) : (s.putByte ea b).stack = s.stack := rfl
@[simp] theorem State.putByte_sp (ea : Nat) (b : Byte) : (s.putByte ea b).sp = s.sp := rfl
@[simp] theorem State.putByte_dt (ea : Nat) (b : Byte) : (s.putByte ea b).dt = s.dt := rfl
@[simp] theorem State.putByte_st (ea : Nat) (b : Byte) : (s.putByte ea b).st = s.st := rfl
@[simp] theorem State.putByte_keypad (ea : Nat) (b : Byte) : (s.putByte ea b).keypad = s.keypad := rfl
@[simp] theorem State.putByte_fb (ea : Nat) (b : Byte) : (s.putByte ea b).fb = s.fb := rfl
@[simp] theorem State.putByte_ir (ea : Nat) (b : Byte) : (s.putByte ea b).ir = s.ir := rfl
@[simp] theorem State.putByte_mem (ea : Nat) (b : Byte) : (s.putByte ea b).mem = s.mem.write (ea % Config.memSize) b := rfl
@[simp] theorem State.putByte_run (ea : Nat) (b : Byte) : (s.putByte ea b).run = s.run := rfl
@[simp] theorem State.putByte_status (ea : Nat) (b : Byte) : (s.putByte ea b).status = s.status := rfl
@[simp] theorem State.putByte_keySchedule (ea : Nat) (b : Byte) : (s.putByte ea b).keySchedule = s.keySchedule := rfl
@[simp] theorem State.putByte_rndSupply (ea : Nat) (b : Byte) : (s.putByte ea b).rndSupply = s.rndSupply := rfl
@[simp] theorem State.putByte_rndDrawn (ea : Nat) (b : Byte) : (s.putByte ea b).rndDrawn = s.rndDrawn := rfl
@[simp] theorem State.putByte_stackFaultSeen (ea : Nat) (b : Byte) : (s.putByte ea b).stackFaultSeen = s.stackFaultSeen := rfl

/-! ### raise -/

@[simp] theorem State.raise_v (c : Condition) : (s.raise c).v = s.v := rfl
@[simp] theorem State.raise_i (c : Condition) : (s.raise c).i = s.i := rfl
@[simp] theorem State.raise_pc (c : Condition) : (s.raise c).pc = s.pc := rfl
@[simp] theorem State.raise_stack (c : Condition) : (s.raise c).stack = s.stack := rfl
@[simp] theorem State.raise_sp (c : Condition) : (s.raise c).sp = s.sp := rfl
@[simp] theorem State.raise_dt (c : Condition) : (s.raise c).dt = s.dt := rfl
@[simp] theorem State.raise_st (c : Condition) : (s.raise c).st = s.st := rfl
@[simp] theorem State.raise_keypad (c : Condition) : (s.raise c).keypad = s.keypad := rfl
@[simp] theorem State.raise_fb (c : Condition) : (s.raise c).fb = s.fb := rfl
@[simp] theorem State.raise_ir (c : Condition) : (s.raise c).ir = s.ir := rfl
@[simp] theorem State.raise_mem (c : Condition) : (s.raise c).mem = s.mem := rfl
@[simp] theorem State.raise_run (c : Condition) : (s.raise c).run = s.run := rfl
@[simp] theorem State.raise_status (c : Condition) : (s.raise c).status = s.status.report c := rfl
@[simp] theorem State.raise_keySchedule (c : Condition) : (s.raise c).keySchedule = s.keySchedule := rfl
@[simp] theorem State.raise_rndSupply (c : Condition) : (s.raise c).rndSupply = s.rndSupply := rfl
@[simp] theorem State.raise_rndDrawn (c : Condition) : (s.raise c).rndDrawn = s.rndDrawn := rfl
@[simp] theorem State.raise_stackFaultSeen (c : Condition) : (s.raise c).stackFaultSeen = (s.stackFaultSeen || c.isStack) := rfl

/-! ### setPixel -/

@[simp] theorem State.setPixel_v (row : Fin 32) (col : Fin 64) (b : Bool) : (s.setPixel row col b).v = s.v := rfl
@[simp] theorem State.setPixel_i (row : Fin 32) (col : Fin 64) (b : Bool) : (s.setPixel row col b).i = s.i := rfl
@[simp] theorem State.setPixel_pc (row : Fin 32) (col : Fin 64) (b : Bool) : (s.setPixel row col b).pc = s.pc := rfl
@[simp] theorem State.setPixel_stack (row : Fin 32) (col : Fin 64) (b : Bool) : (s.setPixel row col b).stack = s.stack := rfl
@[simp] theorem State.setPixel_sp (row : Fin 32) (col : Fin 64) (b : Bool) : (s.setPixel row col b).sp = s.sp := rfl
@[simp] theorem State.setPixel_dt (row : Fin 32) (col : Fin 64) (b : Bool) : (s.setPixel row col b).dt = s.dt := rfl
@[simp] theorem State.setPixel_st (row : Fin 32) (col : Fin 64) (b : Bool) : (s.setPixel row col b).st = s.st := rfl
@[simp] theorem State.setPixel_keypad (row : Fin 32) (col : Fin 64) (b : Bool) : (s.setPixel row col b).keypad = s.keypad := rfl
@[simp] theorem State.setPixel_fb (row : Fin 32) (col : Fin 64) (b : Bool) : (s.setPixel row col b).fb = s.fb.set row (s.fb[row].set col b) := rfl
@[simp] theorem State.setPixel_ir (row : Fin 32) (col : Fin 64) (b : Bool) : (s.setPixel row col b).ir = s.ir := rfl
@[simp] theorem State.setPixel_mem (row : Fin 32) (col : Fin 64) (b : Bool) : (s.setPixel row col b).mem = s.mem := rfl
@[simp] theorem State.setPixel_run (row : Fin 32) (col : Fin 64) (b : Bool) : (s.setPixel row col b).run = s.run := rfl
@[simp] theorem State.setPixel_status (row : Fin 32) (col : Fin 64) (b : Bool) : (s.setPixel row col b).status = s.status := rfl
@[simp] theorem State.setPixel_keySchedule (row : Fin 32) (col : Fin 64) (b : Bool) : (s.setPixel row col b).keySchedule = s.keySchedule := rfl
@[simp] theorem State.setPixel_rndSupply (row : Fin 32) (col : Fin 64) (b : Bool) : (s.setPixel row col b).rndSupply = s.rndSupply := rfl
@[simp] theorem State.setPixel_rndDrawn (row : Fin 32) (col : Fin 64) (b : Bool) : (s.setPixel row col b).rndDrawn = s.rndDrawn := rfl
@[simp] theorem State.setPixel_stackFaultSeen (row : Fin 32) (col : Fin 64) (b : Bool) : (s.setPixel row col b).stackFaultSeen = s.stackFaultSeen := rfl

/-! ### clearScreen -/

@[simp] theorem State.clearScreen_v : s.clearScreen.v = s.v := rfl
@[simp] theorem State.clearScreen_i : s.clearScreen.i = s.i := rfl
@[simp] theorem State.clearScreen_pc : s.clearScreen.pc = s.pc := rfl
@[simp] theorem State.clearScreen_stack : s.clearScreen.stack = s.stack := rfl
@[simp] theorem State.clearScreen_sp : s.clearScreen.sp = s.sp := rfl
@[simp] theorem State.clearScreen_dt : s.clearScreen.dt = s.dt := rfl
@[simp] theorem State.clearScreen_st : s.clearScreen.st = s.st := rfl
@[simp] theorem State.clearScreen_keypad : s.clearScreen.keypad = s.keypad := rfl
@[simp] theorem State.clearScreen_fb : s.clearScreen.fb = Vector.replicate 32 (Vector.replicate 64 false) := rfl
@[simp] theorem State.clearScreen_ir : s.clearScreen.ir = s.ir := rfl
@[simp] theorem State.clearScreen_mem : s.clearScreen.mem = s.mem := rfl
@[simp] theorem State.clearScreen_run : s.clearScreen.run = s.run := rfl
@[simp] theorem State.clearScreen_status : s.clearScreen.status = s.status := rfl
@[simp] theorem State.clearScreen_keySchedule : s.clearScreen.keySchedule = s.keySchedule := rfl
@[simp] theorem State.clearScreen_rndSupply : s.clearScreen.rndSupply = s.rndSupply := rfl
@[simp] theorem State.clearScreen_rndDrawn : s.clearScreen.rndDrawn = s.rndDrawn := rfl
@[simp] theorem State.clearScreen_stackFaultSeen : s.clearScreen.stackFaultSeen = s.stackFaultSeen := rfl

/-! ### rndConsumed -/

@[simp] theorem State.rndConsumed_v : s.rndConsumed.v = s.v := rfl
@[simp] theorem State.rndConsumed_i : s.rndConsumed.i = s.i := rfl
@[simp] theorem State.rndConsumed_pc : s.rndConsumed.pc = s.pc := rfl
@[simp] theorem State.rndConsumed_stack : s.rndConsumed.stack = s.stack := rfl
@[simp] theorem State.rndConsumed_sp : s.rndConsumed.sp = s.sp := rfl
@[simp] theorem State.rndConsumed_dt : s.rndConsumed.dt = s.dt := rfl
@[simp] theorem State.rndConsumed_st : s.rndConsumed.st = s.st := rfl
@[simp] theorem State.rndConsumed_keypad : s.rndConsumed.keypad = s.keypad := rfl
@[simp] theorem State.rndConsumed_fb : s.rndConsumed.fb = s.fb := rfl
@[simp] theorem State.rndConsumed_ir : s.rndConsumed.ir = s.ir := rfl
@[simp] theorem State.rndConsumed_mem : s.rndConsumed.mem = s.mem := rfl
@[simp] theorem State.rndConsumed_run : s.rndConsumed.run = s.run := rfl
@[simp] theorem State.rndConsumed_status : s.rndConsumed.status = s.status := rfl
@[simp] theorem State.rndConsumed_keySchedule : s.rndConsumed.keySchedule = s.keySchedule := rfl
@[simp] theorem State.rndConsumed_rndSupply : s.rndConsumed.rndSupply = s.rndSupply.tail := rfl
@[simp] theorem State.rndConsumed_rndDrawn : s.rndConsumed.rndDrawn = s.rndDrawn + 1 := rfl
@[simp] theorem State.rndConsumed_stackFaultSeen : s.rndConsumed.stackFaultSeen = s.stackFaultSeen := rfl

/-! ### sampleKeys -/

@[simp] theorem State.sampleKeys_v : s.sampleKeys.v = s.v := rfl
@[simp] theorem State.sampleKeys_i : s.sampleKeys.i = s.i := rfl
@[simp] theorem State.sampleKeys_pc : s.sampleKeys.pc = s.pc := rfl
@[simp] theorem State.sampleKeys_stack : s.sampleKeys.stack = s.stack := rfl
@[simp] theorem State.sampleKeys_sp : s.sampleKeys.sp = s.sp := rfl
@[simp] theorem State.sampleKeys_dt : s.sampleKeys.dt = s.dt := rfl
@[simp] theorem State.sampleKeys_st : s.sampleKeys.st = s.st := rfl
@[simp] theorem State.sampleKeys_keypad : s.sampleKeys.keypad = s.keySchedule.headD s.keypad := rfl
@[simp] theorem State.sampleKeys_fb : s.sampleKeys.fb = s.fb := rfl
@[simp] theorem State.sampleKeys_ir : s.sampleKeys.ir = s.ir := rfl
@[simp] theorem State.sampleKeys_mem : s.sampleKeys.mem = s.mem := rfl
@[simp] theorem State.sampleKeys_run : s.sampleKeys.run = s.run := rfl
@[simp] theorem State.sampleKeys_status : s.sampleKeys.status = s.status := rfl
@[simp] theorem State.sampleKeys_keySchedule : s.sampleKeys.keySchedule = s.keySchedule.tail := rfl
@[simp] theorem State.sampleKeys_rndSupply : s.sampleKeys.rndSupply = s.rndSupply := rfl
@[simp] theorem State.sampleKeys_rndDrawn : s.sampleKeys.rndDrawn = s.rndDrawn := rfl
@[simp] theorem State.sampleKeys_stackFaultSeen : s.sampleKeys.stackFaultSeen = s.stackFaultSeen := rfl

/-! ### beginCycle -/

@[simp] theorem State.beginCycle_v : s.beginCycle.v = s.v := rfl
@[simp] theorem State.beginCycle_i : s.beginCycle.i = s.i := rfl
@[simp] theorem State.beginCycle_pc : s.beginCycle.pc = s.pc := rfl
@[simp] theorem State.beginCycle_stack : s.beginCycle.stack = s.stack := rfl
@[simp] theorem State.beginCycle_sp : s.beginCycle.sp = s.sp := rfl
@[simp] theorem State.beginCycle_dt : s.beginCycle.dt = s.dt := rfl
@[simp] theorem State.beginCycle_st : s.beginCycle.st = s.st := rfl
@[simp] theorem State.beginCycle_keypad : s.beginCycle.keypad = s.keypad := rfl
@[simp] theorem State.beginCycle_fb : s.beginCycle.fb = s.fb := rfl
@[simp] theorem State.beginCycle_ir : s.beginCycle.ir = s.ir := rfl
@[simp] theorem State.beginCycle_mem : s.beginCycle.mem = s.mem := rfl
@[simp] theorem State.beginCycle_run : s.beginCycle.run = .running := rfl
@[simp] theorem State.beginCycle_status : s.beginCycle.status = Status.clear := rfl
@[simp] theorem State.beginCycle_keySchedule : s.beginCycle.keySchedule = s.keySchedule := rfl
@[simp] theorem State.beginCycle_rndSupply : s.beginCycle.rndSupply = s.rndSupply := rfl
@[simp] theorem State.beginCycle_rndDrawn : s.beginCycle.rndDrawn = s.rndDrawn := rfl
@[simp] theorem State.beginCycle_stackFaultSeen : s.beginCycle.stackFaultSeen = s.stackFaultSeen := rfl

/-! ### setKey -/

@[simp] theorem State.setKey_v (k : Key) (down : Bool) : (s.setKey k down).v = s.v := rfl
@[simp] theorem State.setKey_i (k : Key) (down : Bool) : (s.setKey k down).i = s.i := rfl
@[simp] theorem State.setKey_pc (k : Key) (down : Bool) : (s.setKey k down).pc = s.pc := rfl
@[simp] theorem State.setKey_stack (k : Key) (down : Bool) : (s.setKey k down).stack = s.stack := rfl
@[simp] theorem State.setKey_sp (k : Key) (down : Bool) : (s.setKey k down).sp = s.sp := rfl
@[simp] theorem State.setKey_dt (k : Key) (down : Bool) : (s.setKey k down).dt = s.dt := rfl
@[simp] theorem State.setKey_st (k : Key) (down : Bool) : (s.setKey k down).st = s.st := rfl
@[simp] theorem State.setKey_keypad (k : Key) (down : Bool) : (s.setKey k down).keypad = if down then s.keypad ||| (1#16 <<< k.val) else s.keypad &&& ~~~(1#16 <<< k.val) := rfl
@[simp] theorem State.setKey_fb (k : Key) (down : Bool) : (s.setKey k down).fb = s.fb := rfl
@[simp] theorem State.setKey_ir (k : Key) (down : Bool) : (s.setKey k down).ir = s.ir := rfl
@[simp] theorem State.setKey_mem (k : Key) (down : Bool) : (s.setKey k down).mem = s.mem := rfl
@[simp] theorem State.setKey_run (k : Key) (down : Bool) : (s.setKey k down).run = s.run := rfl
@[simp] theorem State.setKey_status (k : Key) (down : Bool) : (s.setKey k down).status = s.status := rfl
@[simp] theorem State.setKey_keySchedule (k : Key) (down : Bool) : (s.setKey k down).keySchedule = s.keySchedule := rfl
@[simp] theorem State.setKey_rndSupply (k : Key) (down : Bool) : (s.setKey k down).rndSupply = s.rndSupply := rfl
@[simp] theorem State.setKey_rndDrawn (k : Key) (down : Bool) : (s.setKey k down).rndDrawn = s.rndDrawn := rfl
@[simp] theorem State.setKey_stackFaultSeen (k : Key) (down : Bool) : (s.setKey k down).stackFaultSeen = s.stackFaultSeen := rfl

/-! ### scheduleKeys -/

@[simp] theorem State.scheduleKeys_v (ks : List (BitVec 16)) : (s.scheduleKeys ks).v = s.v := rfl
@[simp] theorem State.scheduleKeys_i (ks : List (BitVec 16)) : (s.scheduleKeys ks).i = s.i := rfl
@[simp] theorem State.scheduleKeys_pc (ks : List (BitVec 16)) : (s.scheduleKeys ks).pc = s.pc := rfl
@[simp] theorem State.scheduleKeys_stack (ks : List (BitVec 16)) : (s.scheduleKeys ks).stack = s.stack := rfl
@[simp] theorem State.scheduleKeys_sp (ks : List (BitVec 16)) : (s.scheduleKeys ks).sp = s.sp := rfl
@[simp] theorem State.scheduleKeys_dt (ks : List (BitVec 16)) : (s.scheduleKeys ks).dt = s.dt := rfl
@[simp] theorem State.scheduleKeys_st (ks : List (BitVec 16)) : (s.scheduleKeys ks).st = s.st := rfl
@[simp] theorem State.scheduleKeys_keypad (ks : List (BitVec 16)) : (s.scheduleKeys ks).keypad = s.keypad := rfl
@[simp] theorem State.scheduleKeys_fb (ks : List (BitVec 16)) : (s.scheduleKeys ks).fb = s.fb := rfl
@[simp] theorem State.scheduleKeys_ir (ks : List (BitVec 16)) : (s.scheduleKeys ks).ir = s.ir := rfl
@[simp] theorem State.scheduleKeys_mem (ks : List (BitVec 16)) : (s.scheduleKeys ks).mem = s.mem := rfl
@[simp] theorem State.scheduleKeys_run (ks : List (BitVec 16)) : (s.scheduleKeys ks).run = s.run := rfl
@[simp] theorem State.scheduleKeys_status (ks : List (BitVec 16)) : (s.scheduleKeys ks).status = s.status := rfl
@[simp] theorem State.scheduleKeys_keySchedule (ks : List (BitVec 16)) : (s.scheduleKeys ks).keySchedule = s.keySchedule ++ ks := rfl
@[simp] theorem State.scheduleKeys_rndSupply (ks : List (BitVec 16)) : (s.scheduleKeys ks).rndSupply = s.rndSupply := rfl
@[simp] theorem State.scheduleKeys_rndDrawn (ks : List (BitVec 16)) : (s.scheduleKeys ks).rndDrawn = s.rndDrawn := rfl
@[simp] theorem State.scheduleKeys_stackFaultSeen (ks : List (BitVec 16)) : (s.scheduleKeys ks).stackFaultSeen = s.stackFaultSeen := rfl

/-! ### supplyRandom -/

@[simp] theorem State.supplyRandom_v (bs : List Byte) : (s.supplyRandom bs).v = s.v := rfl
@[simp] theorem State.supplyRandom_i (bs : List Byte) : (s.supplyRandom bs).i = s.i := rfl
@[simp] theorem State.supplyRandom_pc (bs : List Byte) : (s.supplyRandom bs).pc = s.pc := rfl
@[simp] theorem State.supplyRandom_stack (bs : List Byte) : (s.supplyRandom bs).stack = s.stack := rfl
@[simp] theorem State.supplyRandom_sp (bs : List Byte) : (s.supplyRandom bs).sp = s.sp := rfl
@[simp] theorem State.supplyRandom_dt (bs : List Byte) : (s.supplyRandom bs).dt = s.dt := rfl
@[simp] theorem State.supplyRandom_st (bs : List Byte) : (s.supplyRandom bs).st = s.st := rfl
@[simp] theorem State.supplyRandom_keypad (bs : List Byte) : (s.supplyRandom bs).keypad = s.keypad := rfl
@[simp] theorem State.supplyRandom_fb (bs : List Byte) : (s.supplyRandom bs).fb = s.fb := rfl
@[simp] theorem State.supplyRandom_ir (bs : List Byte) : (s.supplyRandom bs).ir = s.ir := rfl
@[simp] theorem State.supplyRandom_mem (bs : List Byte) : (s.supplyRandom bs).mem = s.mem := rfl
@[simp] theorem State.supplyRandom_run (bs : List Byte) : (s.supplyRandom bs).run = s.run := rfl
@[simp] theorem State.supplyRandom_status (bs : List Byte) : (s.supplyRandom bs).status = s.status := rfl
@[simp] theorem State.supplyRandom_keySchedule (bs : List Byte) : (s.supplyRandom bs).keySchedule = s.keySchedule := rfl
@[simp] theorem State.supplyRandom_rndSupply (bs : List Byte) : (s.supplyRandom bs).rndSupply = s.rndSupply ++ bs := rfl
@[simp] theorem State.supplyRandom_rndDrawn (bs : List Byte) : (s.supplyRandom bs).rndDrawn = s.rndDrawn := rfl
@[simp] theorem State.supplyRandom_stackFaultSeen (bs : List Byte) : (s.supplyRandom bs).stackFaultSeen = s.stackFaultSeen := rfl

end Sys2Proof.Machine
end

