-- ==== Sys2Proof/Laws/Reads.lean ====
section
/-! SUPPORT. Reads across the elementary updates: a register, a byte of memory, a pixel, a key and
the effective address read the same after an update that does not touch them. True by rfl. -/

namespace Sys2Proof.Machine

variable (s : State)

/-! ### readV -/

@[simp] theorem State.readV_setI (w : Word) (q : Reg) : (s.setI w).readV q = s.readV q := rfl
@[simp] theorem State.readV_setPc (w : Word) (q : Reg) : (s.setPc w).readV q = s.readV q := rfl
@[simp] theorem State.readV_setDt (b : Byte) (q : Reg) : (s.setDt b).readV q = s.readV q := rfl
@[simp] theorem State.readV_setSt (b : Byte) (q : Reg) : (s.setSt b).readV q = s.readV q := rfl
@[simp] theorem State.readV_putByte (ea : Nat) (b : Byte) (q : Reg) : (s.putByte ea b).readV q = s.readV q := rfl
@[simp] theorem State.readV_raise (c : Condition) (q : Reg) : (s.raise c).readV q = s.readV q := rfl
@[simp] theorem State.readV_setPixel (row : Fin 32) (col : Fin 64) (b : Bool) (q : Reg) : (s.setPixel row col b).readV q = s.readV q := rfl
@[simp] theorem State.readV_clearScreen (q : Reg) : s.clearScreen.readV q = s.readV q := rfl
@[simp] theorem State.readV_rndConsumed (q : Reg) : s.rndConsumed.readV q = s.readV q := rfl
@[simp] theorem State.readV_sampleKeys (q : Reg) : s.sampleKeys.readV q = s.readV q := rfl
@[simp] theorem State.readV_beginCycle (q : Reg) : s.beginCycle.readV q = s.readV q := rfl

/-! ### readByte -/

@[simp] theorem State.readByte_setI (w : Word) (a : Nat) : (s.setI w).readByte a = s.readByte a := rfl
@[simp] theorem State.readByte_setPc (w : Word) (a : Nat) : (s.setPc w).readByte a = s.readByte a := rfl
@[simp] theorem State.readByte_setDt (b : Byte) (a : Nat) : (s.setDt b).readByte a = s.readByte a := rfl
@[simp] theorem State.readByte_setSt (b : Byte) (a : Nat) : (s.setSt b).readByte a = s.readByte a := rfl
@[simp] theorem State.readByte_writeV (r : Reg) (b : Byte) (a : Nat) : (s.writeV r b).readByte a = s.readByte a := rfl
@[simp] theorem State.readByte_raise (c : Condition) (a : Nat) : (s.raise c).readByte a = s.readByte a := rfl
@[simp] theorem State.readByte_setPixel (row : Fin 32) (col : Fin 64) (b : Bool) (a : Nat) : (s.setPixel row col b).readByte a = s.readByte a := rfl
@[simp] theorem State.readByte_clearScreen (a : Nat) : s.clearScreen.readByte a = s.readByte a := rfl
@[simp] theorem State.readByte_rndConsumed (a : Nat) : s.rndConsumed.readByte a = s.readByte a := rfl
@[simp] theorem State.readByte_sampleKeys (a : Nat) : s.sampleKeys.readByte a = s.readByte a := rfl
@[simp] theorem State.readByte_beginCycle (a : Nat) : s.beginCycle.readByte a = s.readByte a := rfl

/-! ### pixel -/

@[simp] theorem State.pixel_setI (w : Word) (row' : Fin 32) (col' : Fin 64) : (s.setI w).pixel row' col' = s.pixel row' col' := rfl
@[simp] theorem State.pixel_setPc (w : Word) (row' : Fin 32) (col' : Fin 64) : (s.setPc w).pixel row' col' = s.pixel row' col' := rfl
@[simp] theorem State.pixel_setDt (b : Byte) (row' : Fin 32) (col' : Fin 64) : (s.setDt b).pixel row' col' = s.pixel row' col' := rfl
@[simp] theorem State.pixel_setSt (b : Byte) (row' : Fin 32) (col' : Fin 64) : (s.setSt b).pixel row' col' = s.pixel row' col' := rfl
@[simp] theorem State.pixel_writeV (r : Reg) (b : Byte) (row' : Fin 32) (col' : Fin 64) : (s.writeV r b).pixel row' col' = s.pixel row' col' := rfl
@[simp] theorem State.pixel_putByte (ea : Nat) (b : Byte) (row' : Fin 32) (col' : Fin 64) : (s.putByte ea b).pixel row' col' = s.pixel row' col' := rfl
@[simp] theorem State.pixel_raise (c : Condition) (row' : Fin 32) (col' : Fin 64) : (s.raise c).pixel row' col' = s.pixel row' col' := rfl
@[simp] theorem State.pixel_rndConsumed (row' : Fin 32) (col' : Fin 64) : s.rndConsumed.pixel row' col' = s.pixel row' col' := rfl
@[simp] theorem State.pixel_sampleKeys (row' : Fin 32) (col' : Fin 64) : s.sampleKeys.pixel row' col' = s.pixel row' col' := rfl
@[simp] theorem State.pixel_beginCycle (row' : Fin 32) (col' : Fin 64) : s.beginCycle.pixel row' col' = s.pixel row' col' := rfl

/-! ### keyDown -/

@[simp] theorem State.keyDown_setI (w : Word) (q : Key) : (s.setI w).keyDown q = s.keyDown q := rfl
@[simp] theorem State.keyDown_setPc (w : Word) (q : Key) : (s.setPc w).keyDown q = s.keyDown q := rfl
@[simp] theorem State.keyDown_setDt (b : Byte) (q : Key) : (s.setDt b).keyDown q = s.keyDown q := rfl
@[simp] theorem State.keyDown_setSt (b : Byte) (q : Key) : (s.setSt b).keyDown q = s.keyDown q := rfl
@[simp] theorem State.keyDown_writeV (r : Reg) (b : Byte) (q : Key) : (s.writeV r b).keyDown q = s.keyDown q := rfl
@[simp] theorem State.keyDown_putByte (ea : Nat) (b : Byte) (q : Key) : (s.putByte ea b).keyDown q = s.keyDown q := rfl
@[simp] theorem State.keyDown_raise (c : Condition) (q : Key) : (s.raise c).keyDown q = s.keyDown q := rfl
@[simp] theorem State.keyDown_setPixel (row : Fin 32) (col : Fin 64) (b : Bool) (q : Key) : (s.setPixel row col b).keyDown q = s.keyDown q := rfl
@[simp] theorem State.keyDown_clearScreen (q : Key) : s.clearScreen.keyDown q = s.keyDown q := rfl
@[simp] theorem State.keyDown_rndConsumed (q : Key) : s.rndConsumed.keyDown q = s.keyDown q := rfl
@[simp] theorem State.keyDown_beginCycle (q : Key) : s.beginCycle.keyDown q = s.keyDown q := rfl

/-! ### effAddr -/

@[simp] theorem State.effAddr_setPc (w : Word) (j : Nat) : (s.setPc w).effAddr j = s.effAddr j := rfl
@[simp] theorem State.effAddr_setDt (b : Byte) (j : Nat) : (s.setDt b).effAddr j = s.effAddr j := rfl
@[simp] theorem State.effAddr_setSt (b : Byte) (j : Nat) : (s.setSt b).effAddr j = s.effAddr j := rfl
@[simp] theorem State.effAddr_writeV (r : Reg) (b : Byte) (j : Nat) : (s.writeV r b).effAddr j = s.effAddr j := rfl
@[simp] theorem State.effAddr_putByte (ea : Nat) (b : Byte) (j : Nat) : (s.putByte ea b).effAddr j = s.effAddr j := rfl
@[simp] theorem State.effAddr_raise (c : Condition) (j : Nat) : (s.raise c).effAddr j = s.effAddr j := rfl
@[simp] theorem State.effAddr_setPixel (row : Fin 32) (col : Fin 64) (b : Bool) (j : Nat) : (s.setPixel row col b).effAddr j = s.effAddr j := rfl
@[simp] theorem State.effAddr_clearScreen (j : Nat) : s.clearScreen.effAddr j = s.effAddr j := rfl
@[simp] theorem State.effAddr_rndConsumed (j : Nat) : s.rndConsumed.effAddr j = s.effAddr j := rfl
@[simp] theorem State.effAddr_sampleKeys (j : Nat) : s.sampleKeys.effAddr j = s.effAddr j := rfl
@[simp] theorem State.effAddr_beginCycle (j : Nat) : s.beginCycle.effAddr j = s.effAddr j := rfl

end Sys2Proof.Machine
end

