-- ==== Sys2Proof/Laws/Ops.lean ====
section
/-! SUPPORT. What each shared operation can do, said once: later proofs cite these and do not unfold the operations. -/

namespace Sys2Proof.Machine

variable (s : State)

/-! ## Registers -/

/-- A register after a register write. -/
@[simp] theorem State.readV_writeV (r q : Reg) (b : Byte) :
    (s.writeV r b).readV q = if q = r then b else s.readV q := by
  simp only [State.readV, State.writeV, Fin.getElem_fin, Vector.getElem_set, Fin.val_inj, eq_comm (a := q)]

/-- Result first, flag last (R103): VF holds the flag, `V[x]` the result unless x is 15. -/
theorem State.readV_writeWithFlag (x q : Reg) (b : Byte) (f : Bool) :
    (s.writeWithFlag x b f).readV q = if q = 15 then flagByte f else if q = x then b else s.readV q := by
  simp [State.writeWithFlag, flagReg]

/-- A write with flag touches the registers only. -/
theorem State.writeWithFlag_eq (x : Reg) (b : Byte) (f : Bool) :
    s.writeWithFlag x b f = { s with v := (s.writeWithFlag x b f).v } := rfl

/-- A skip changes `pc` alone (R88). -/
theorem State.skipIf_eq (c : Bool) : s.skipIf c = s.setPc (s.pc + if c then 2 else 0) := by
  cases c <;> simp [State.skipIf, State.advancePc, State.setPc]

/-! ## Conditions and memory -/

/-- A noted access sets AW when the address is 4096 or more, and nothing else (R143). -/
theorem State.noteAccess_eq (ea : Nat) :
    s.noteAccess ea = { s with status := { s.status with aw := s.status.aw || decide (Config.memSize ≤ ea) } } := by
  unfold State.noteAccess
  split
  · simp [State.raise, Status.report, Condition.isStack, *]
  · rw [decide_eq_false ‹_›, Bool.or_false]

/-- A byte of memory after a byte is put (R33). -/
theorem State.readByte_putByte (ea a : Nat) (b : Byte) :
    (s.putByte ea b).readByte a = if a % 4096 = ea % 4096 then b else s.readByte a := by
  simp [State.readByte, Memory.read_write]

@[simp] theorem State.readByte_noteAccess (ea a : Nat) : (s.noteAccess ea).readByte a = s.readByte a := by
  rw [noteAccess_eq]; rfl

@[simp] theorem State.readV_noteAccess (ea : Nat) (r : Reg) : (s.noteAccess ea).readV r = s.readV r := by
  rw [noteAccess_eq]; rfl

@[simp] theorem State.pixel_noteAccess (ea : Nat) (row : Fin 32) (col : Fin 64) :
    (s.noteAccess ea).pixel row col = s.pixel row col := by
  rw [noteAccess_eq]; rfl

/-- A byte of memory after a byte write (R33). -/
theorem State.readByte_memWrite (ea a : Nat) (b : Byte) :
    (s.memWrite ea b).readByte a = if a % 4096 = ea % 4096 then b else s.readByte a := by
  simp [State.memWrite, readByte_putByte]

/-- A byte write touches memory and the status only (R33). -/
theorem State.memWrite_eq (ea : Nat) (b : Byte) :
    s.memWrite ea b = { s with
      mem := s.mem.write (ea % 4096) b,
      status := { s.status with aw := s.status.aw || decide (4096 ≤ ea) } } := by
  rw [State.memWrite, noteAccess_eq]; rfl

/-- A byte write keeps the canonical form. -/
theorem State.wf_putByte {s : State} (h : s.mem.wf) (ea : Nat) (b : Byte) : (s.putByte ea b).mem.wf :=
  Memory.wf_write h (Nat.mod_lt _ (by decide)) b

/-! ## Block stores -/

/-- A block store touches memory and the status only. -/
theorem State.storeBytes_eq (ea : Nat) (bs : List Byte) :
    s.storeBytes ea bs = { s with mem := (s.storeBytes ea bs).mem, status := (s.storeBytes ea bs).status } := by
  induction bs generalizing s ea with
  | nil => rfl
  | cons b bs ih => simp only [State.storeBytes]; rw [ih, memWrite_eq]

/-- A block store reports a wrap when its last address is 4096 or more. -/
theorem State.storeBytes_status (ea : Nat) (bs : List Byte) :
    (s.storeBytes ea bs).status = { s.status with
      aw := s.status.aw || (decide (0 < bs.length) && decide (4096 < ea + bs.length)) } := by
  induction bs generalizing s ea with
  | nil => simp [State.storeBytes]
  | cons b bs ih =>
    have key : ((s.status.aw || decide (4096 ≤ ea)) ||
        (decide (0 < bs.length) && decide (4096 < ea + 1 + bs.length))) =
        (s.status.aw || (decide (0 < bs.length + 1) && decide (4096 < ea + (bs.length + 1)))) := by
      rw [Bool.eq_iff_iff]
      simp only [Bool.or_eq_true, Bool.and_eq_true, decide_eq_true_eq]
      cases s.status.aw
      · simp; omega
      · simp
    simp only [State.storeBytes, ih, memWrite_eq, List.length_cons, key]

/-- A block store leaves every byte outside its own alone. -/
theorem State.readByte_storeBytes_of_outside (ea a : Nat) (bs : List Byte)
    (h : ∀ k, k < bs.length → a % 4096 ≠ (ea + k) % 4096) : (s.storeBytes ea bs).readByte a = s.readByte a := by
  induction bs generalizing s ea with
  | nil => rfl
  | cons b bs ih =>
    rw [State.storeBytes, ih, readByte_memWrite, if_neg (by simpa using h 0 (by simp))]
    intro k hk
    rw [Nat.add_assoc, Nat.add_comm 1 k]
    exact h (k + 1) (by simpa using hk)

/-- A block store of at most 4096 bytes puts its k-th byte at its k-th address. -/
theorem State.readByte_storeBytes (ea : Nat) (bs : List Byte) (hl : bs.length ≤ 4096) (k : Nat) (hk : k < bs.length) :
    (s.storeBytes ea bs).readByte (ea + k) = bs[k] := by
  induction bs generalizing s ea k with
  | nil => simp at hk
  | cons b bs ih =>
    simp only [List.length_cons] at hl hk
    cases k with
    | zero =>
      rw [State.storeBytes, readByte_storeBytes_of_outside, readByte_memWrite]
      · simp
      · intro j hj; omega
    | succ k =>
      have := ih (s.memWrite ea b) (ea + 1) (by omega) k (by omega)
      rw [State.storeBytes, ← Nat.add_assoc, Nat.add_right_comm, this]
      rfl

/-- A block store keeps the canonical form. -/
theorem State.wf_storeBytes {s : State} (h : s.mem.wf) (ea : Nat) (bs : List Byte) : (s.storeBytes ea bs).mem.wf := by
  induction bs generalizing s ea with
  | nil => exact h
  | cons b bs ih => exact ih (by rw [memWrite_eq]; exact Memory.wf_write h (Nat.mod_lt _ (by decide)) b) (ea + 1)

/-! ## Block loads -/

/-- One register load of a block. -/
theorem State.loadStep_eq (ea : Nat) (r : Reg) :
    (s.memRead ea).2.writeV r (s.memRead ea).1 = { s with
      v := s.v.set r (s.readByte ea),
      status := { s.status with aw := s.status.aw || decide (4096 ≤ ea) } } := by
  simp only [State.memRead, noteAccess_eq]; rfl

/-- A block load touches the registers and the status only. -/
theorem State.loadBytes_eq (ea : Nat) (rs : List Reg) :
    s.loadBytes ea rs = { s with v := (s.loadBytes ea rs).v, status := (s.loadBytes ea rs).status } := by
  induction rs generalizing s ea with
  | nil => rfl
  | cons r rs ih => simp only [State.loadBytes]; rw [ih, loadStep_eq]

/-- A block load reports a wrap when its last address is 4096 or more. -/
theorem State.loadBytes_status (ea : Nat) (rs : List Reg) :
    (s.loadBytes ea rs).status = { s.status with
      aw := s.status.aw || (decide (0 < rs.length) && decide (4096 < ea + rs.length)) } := by
  induction rs generalizing s ea with
  | nil => simp [State.loadBytes]
  | cons r rs ih =>
    have key : ((s.status.aw || decide (4096 ≤ ea)) ||
        (decide (0 < rs.length) && decide (4096 < ea + 1 + rs.length))) =
        (s.status.aw || (decide (0 < rs.length + 1) && decide (4096 < ea + (rs.length + 1)))) := by
      rw [Bool.eq_iff_iff]
      simp only [Bool.or_eq_true, Bool.and_eq_true, decide_eq_true_eq]
      cases s.status.aw
      · simp; omega
      · simp
    simp only [State.loadBytes, ih, loadStep_eq, List.length_cons, key]

/-- A block load leaves every register it does not name alone. -/
theorem State.readV_loadBytes_of_not_mem (ea : Nat) (rs : List Reg) (q : Reg) (h : q ∉ rs) :
    (s.loadBytes ea rs).readV q = s.readV q := by
  induction rs generalizing s ea with
  | nil => rfl
  | cons r rs ih =>
    rw [State.loadBytes, ih _ _ (fun hq => h (List.mem_cons_of_mem _ hq)), readV_writeV,
      if_neg (fun hq => h (by simp [hq]))]
    exact s.readV_noteAccess ea q

/-- A block load of different registers puts the k-th byte in the k-th of them. -/
theorem State.readV_loadBytes (ea : Nat) (rs : List Reg) (hn : rs.Nodup) (k : Nat) (hk : k < rs.length) :
    (s.loadBytes ea rs).readV rs[k] = s.readByte (ea + k) := by
  induction rs generalizing s ea k with
  | nil => simp at hk
  | cons r rs ih =>
    obtain ⟨hr, hn⟩ := List.nodup_cons.1 hn
    cases k with
    | zero =>
      rw [State.loadBytes, List.getElem_cons_zero, readV_loadBytes_of_not_mem _ _ _ _ hr]
      simp [State.memRead]
    | succ k =>
      have := ih ((s.memRead ea).2.writeV r (s.memRead ea).1) (ea + 1) hn k (by simpa using hk)
      rw [State.loadBytes, List.getElem_cons_succ, this, Nat.add_assoc, Nat.add_comm 1 k]
      simp [State.memRead]

/-- V0..Vx are x + 1 registers, the k-th being Vk. -/
@[simp] theorem length_regsUpTo (x : Reg) : (regsUpTo x).length = x.val + 1 := by
  simp [regsUpTo]

theorem getElem_regsUpTo (x : Reg) (k : Nat) (hk : k < (regsUpTo x).length) :
    (regsUpTo x)[k] = ⟨k, by rw [length_regsUpTo] at hk; omega⟩ := by
  simp [regsUpTo]

theorem mem_regsUpTo (x q : Reg) : q ∈ regsUpTo x ↔ q ≤ x := by
  revert x q; decide

theorem nodup_regsUpTo (x : Reg) : (regsUpTo x).Nodup :=
  (List.nodup_finRange 16).sublist (List.take_sublist _ _)

/-! ## Call stack -/

/-- A push either finds the stack full, or writes the slot `sp` names and counts it (R16). -/
theorem State.push_cases (w : Word) :
    (s.sp.val = 16 ∧ s.push w = none) ∨
    ∃ h : s.sp.val < 16, s.push w = some { s with stack := s.stack.set s.sp.val w h, sp := ⟨s.sp.val + 1, by omega⟩ } := by
  have := s.sp.isLt
  unfold State.push
  split
  · exact .inr ⟨‹_›, rfl⟩
  · exact .inl ⟨by omega, rfl⟩

/-- A pop either finds the stack empty, or reads the slot below `sp` and uncounts it (R16). -/
theorem State.pop_cases :
    (s.sp.val = 0 ∧ s.pop = none) ∨
    ∃ h : 0 < s.sp.val, s.pop = some (s.stack[s.sp.val - 1], { s with sp := ⟨s.sp.val - 1, by omega⟩ }) := by
  unfold State.pop
  split
  · exact .inr ⟨‹_›, rfl⟩
  · exact .inl ⟨by omega, rfl⟩

/-! ## Keypad -/

/-- `LowestKey()` is the least key that is down (R9). -/
theorem State.lowestKey_eq_some (k : Key) :
    s.lowestKey = some k ↔ s.keyDown k = true ∧ ∀ j : Key, j < k → s.keyDown j = false := by
  constructor
  · intro h
    refine ⟨List.find?_some h, fun j hj => ?_⟩
    obtain ⟨-, as, bs, hab, has⟩ := List.find?_eq_some_iff_append.1 h
    have hs : (List.finRange 16).Pairwise (· < ·) := by decide
    have hm : j ∈ as ++ k :: bs := hab ▸ List.mem_finRange j
    rw [hab] at hs
    rcases List.mem_append.1 hm with hm | hm
    · simpa using has j hm
    · rcases List.mem_cons.1 hm with rfl | hm
      · exact absurd hj (lt_irrefl _)
      · exact absurd ((List.pairwise_cons.1 (List.pairwise_append.1 hs).2.1).1 j hm) (not_lt_of_gt hj)
  · rintro ⟨hk, hlt⟩
    cases h : s.lowestKey with
    | none =>
      have := List.find?_eq_none.1 h k (List.mem_finRange k)
      simp [hk] at this
    | some j =>
      have hj : s.keyDown j = true := List.find?_some h
      obtain ⟨-, as, bs, hab, has⟩ := List.find?_eq_some_iff_append.1 h
      have hs : (List.finRange 16).Pairwise (· < ·) := by decide
      have hm : k ∈ as ++ j :: bs := hab ▸ List.mem_finRange k
      rw [hab] at hs
      rcases List.mem_append.1 hm with hm | hm
      · have := has k hm
        simp [hk] at this
      · rcases List.mem_cons.1 hm with rfl | hm
        · rfl
        · have hjk := (List.pairwise_cons.1 (List.pairwise_append.1 hs).2.1).1 k hm
          simp [hlt j hjk] at hj

/-- There is no lowest key exactly when no key is down. -/
theorem State.lowestKey_eq_none : s.lowestKey = none ↔ ∀ k, s.keyDown k = false := by
  simp [State.lowestKey]

/-! ## Framebuffer -/

/-- A pixel after a pixel is set. -/
@[simp] theorem State.pixel_setPixel (row row' : Fin 32) (col col' : Fin 64) (b : Bool) :
    (s.setPixel row col b).pixel row' col' = if row' = row ∧ col' = col then b else s.pixel row' col' := by
  simp only [State.pixel, State.setPixel, Fin.getElem_fin, Vector.getElem_set, Fin.val_inj]
  by_cases hr : row = row'
  · subst hr
    by_cases hc : col = col'
    · subst hc; simp
    · simp [hc, Ne.symm hc, Fin.val_inj]
  · simp [hr, Ne.symm hr]

/-- Every pixel is off after a clear (R120). -/
@[simp] theorem State.pixel_clearScreen (row : Fin 32) (col : Fin 64) : s.clearScreen.pixel row col = false := by
  simp [State.pixel]

/-- A pixel after a toggle. -/
theorem State.pixel_togglePixel (row row' : Fin 32) (col col' : Fin 64) :
    (s.togglePixel row col).pixel row' col' = if row' = row ∧ col' = col then !s.pixel row col else s.pixel row' col' := by
  unfold State.togglePixel
  by_cases h : s.pixel row col = true <;> simp [h]

/-- VF after a toggle: set by a collision, else as before (R124). -/
theorem State.readV_togglePixel (row : Fin 32) (col : Fin 64) (q : Reg) :
    (s.togglePixel row col).readV q = if q = 15 ∧ s.pixel row col = true then 1 else s.readV q := by
  unfold State.togglePixel
  by_cases h : s.pixel row col = true <;> simp [h]

/-- A toggle touches the registers and the framebuffer only. -/
theorem State.togglePixel_eq (row : Fin 32) (col : Fin 64) :
    s.togglePixel row col =
      { s with v := (s.togglePixel row col).v, fb := (s.togglePixel row col).fb } := by
  unfold State.togglePixel
  split <;> rfl

end Sys2Proof.Machine
end

