-- ==== Sys2Proof/Laws/Frame.lean ====
section
/-! SUPPORT. Frames: how `OnlyChanges` and `RegsSameExcept` are shown and combined. -/

namespace Sys2Proof.Machine

theorem OnlyChanges.refl (ps : List Part) (s : State) : OnlyChanges ps s s := by
  intro p _; cases p <;> simp [Part.Same]

theorem Part.Same.trans {s t u : State} {p : Part} (h : p.Same s t) (h' : p.Same t u) : p.Same s u := by
  cases p <;> simp_all [Part.Same]

theorem OnlyChanges.trans {ps : List Part} {s t u : State} (h : OnlyChanges ps s t) (h' : OnlyChanges ps t u) :
    OnlyChanges ps s u := fun p hp => (h p hp).trans (h' p hp)

theorem OnlyChanges.mono {ps qs : List Part} {s t : State} (h : OnlyChanges ps s t) (hs : ps ⊆ qs) :
    OnlyChanges qs s t := fun p hp => h p fun hp' => hp (hs hp')

/-- A frame without the register part follows from one equation per field: the named fields may be anything. -/
theorem onlyChanges_regs (s : State) (v : Vector Byte 16) : OnlyChanges [.regs] s { s with v := v } := by
  intro p hp; cases p <;> first | (simp at hp; done) | simp [Part.Same, State.pixel, State.readByte]

theorem onlyChanges_index (s : State) (w : Word) : OnlyChanges [.index] s (s.setI w) := by
  intro p hp; cases p <;> first | (simp at hp; done) | simp [Part.Same]

theorem onlyChanges_pc (s : State) (w : Word) : OnlyChanges [.pc] s (s.setPc w) := by
  intro p hp; cases p <;> first | (simp at hp; done) | simp [Part.Same]

theorem onlyChanges_delay (s : State) (b : Byte) : OnlyChanges [.delay] s (s.setDt b) := by
  intro p hp; cases p <;> first | (simp at hp; done) | simp [Part.Same]

theorem onlyChanges_sound (s : State) (b : Byte) : OnlyChanges [.sound] s (s.setSt b) := by
  intro p hp; cases p <;> first | (simp at hp; done) | simp [Part.Same]

theorem onlyChanges_status (s : State) (st : Status) : OnlyChanges [.status] s { s with status := st } := by
  intro p hp; cases p <;> first | (simp at hp; done) | simp [Part.Same, State.readV, State.pixel, State.readByte]

theorem onlyChanges_screen (s : State) (fb : Vector FbRow 32) : OnlyChanges [.screen] s { s with fb := fb } := by
  intro p hp; cases p <;> first | (simp at hp; done) | simp [Part.Same, State.readV, State.readByte]

theorem onlyChanges_memory (s : State) (m : Memory) : OnlyChanges [.memory] s { s with mem := m } := by
  intro p hp; cases p <;> first | (simp at hp; done) | simp [Part.Same, State.readV, State.pixel]

/-- Raising a condition changes the status and the model's sticky bit only (R148). -/
theorem onlyChanges_raise (s : State) (c : Condition) : OnlyChanges [.status, .sticky] s (s.raise c) := by
  intro p hp; cases p <;> first | (simp at hp; done) | simp [Part.Same]

/-- A write of one register leaves the others. -/
theorem regsSameExcept_writeV (s : State) (x : Reg) (b : Byte) : RegsSameExcept [x] s (s.writeV x b) := by
  intro r hr; simp_all

end Sys2Proof.Machine
end

