-- ==== Sys2Proof/Laws/Cycle.lean ====
section
/-! SUPPORT. The parts of a cycle around the executing instruction (spec/40_cycle_and_dispatch.md R70), said once. -/

namespace Sys2Proof.Machine

variable (s : State)

/-- A tick is truncated subtraction of one: never below zero (R17, R18). -/
@[simp] theorem toNat_tickTimer (b : Byte) : (tickTimer b).toNat = b.toNat - 1 := by
  unfold tickTimer
  split
  · simp_all
  · have : b.toNat ≠ 0 := fun h => ‹¬b = 0› (BitVec.eq_of_toNat_eq (by simpa using h))
    bv_omega

/-- A tick changes the two timers only. -/
theorem State.tick_eq : s.tick = { s with dt := tickTimer s.dt, st := tickTimer s.st } := rfl

/-- The fetch writes `IR` and notes a wrap when either byte address is 4096 or more (R34). -/
theorem State.fetch_eq :
    s.fetch = { s with
      ir := s.wordAt s.pc.toNat,
      status := { s.status with aw := s.status.aw || decide (4096 ≤ s.pc.toNat + 1) } } := by
  have key : ((s.status.aw || decide (4096 ≤ s.pc.toNat)) || decide (4096 ≤ s.pc.toNat + 1)) =
      (s.status.aw || decide (4096 ≤ s.pc.toNat + 1)) := by
    rw [Bool.eq_iff_iff]
    simp only [Bool.or_eq_true, decide_eq_true_eq]
    cases s.status.aw
    · simp; omega
    · simp
  simp only [State.fetch, State.noteAccess_eq, key]

/-- The state step 3 starts in (R72). -/
theorem State.atDispatch_eq :
    s.atDispatch = { s with
      keypad := s.keySchedule.headD s.keypad, keySchedule := s.keySchedule.tail, run := .running,
      ir := s.wordAt s.pc.toNat, pc := s.pc + 2, status := ⟨false, false, decide (4096 ≤ s.pc.toNat + 1)⟩ } := by
  simp only [State.atDispatch, State.advancePc, State.fetch_eq]; rfl

/-- One step is exec of the fetched word at the dispatch state, then a tick. -/
theorem step_eq : step s = endCycle (exec (decodeWord (s.wordAt s.pc.toNat)) s.atDispatch) := by
  unfold step
  rw [State.atDispatch_eq]

/-- A step that answers a next state is an instruction that did, and a tick. -/
theorem step_next {s t : State} (h : step s = .next t) :
    ∃ u, exec (decodeWord (s.wordAt s.pc.toNat)) s.atDispatch = .next u ∧ t = u.tick := by
  rw [step_eq] at h
  cases hu : exec (decodeWord (s.wordAt s.pc.toNat)) s.atDispatch with
  | next u => rw [hu] at h; exact ⟨u, rfl, by simpa [endCycle, eq_comm] using h⟩
  | fault r => cases r
  | refused r => rw [hu] at h; simp [endCycle] at h

end Sys2Proof.Machine
end

