-- ==== Sys2Proof/Laws/Display.lean ====
section
/-! SUPPORT. What drawing a sprite can do (spec/44_display.md R121, R124), said once for a row and once for all rows. -/

namespace Sys2Proof.Machine

/-- A step of drawing from `s` to `t` toggled exactly the cells of `cover`, all different: every cell, VF and the other
registers read accordingly, and nothing but registers, framebuffer and status changed. -/
structure Toggles (cover : Fin 32 → Fin 64 → Prop) (s t : State) : Prop where
  covered : ∀ row col, cover row col → t.pixel row col = !s.pixel row col
  uncovered : ∀ row col, ¬cover row col → t.pixel row col = s.pixel row col
  collision : (∃ row col, cover row col ∧ s.pixel row col = true) → t.readV 15 = 1
  noCollision : (¬∃ row col, cover row col ∧ s.pixel row col = true) → t.readV 15 = s.readV 15
  otherRegs : ∀ q, q ≠ 15 → t.readV q = s.readV q
  rest : t = { s with v := t.v, fb := t.fb, status := t.status }

theorem Toggles.refl (s : State) {cover : Fin 32 → Fin 64 → Prop} (h : ∀ row col, ¬cover row col) : Toggles cover s s where
  covered row col hc := absurd hc (h row col)
  uncovered _ _ _ := rfl
  collision := fun ⟨row, col, hc, _⟩ => absurd hc (h row col)
  noCollision _ := rfl
  otherRegs _ _ := rfl
  rest := rfl

/-- Two drawings that share no cell, one after the other. -/
theorem Toggles.trans {s t u : State} {p q pq : Fin 32 → Fin 64 → Prop} (hst : Toggles p s t) (htu : Toggles q t u)
    (hd : ∀ row col, p row col → ¬q row col) (hpq : ∀ row col, pq row col ↔ p row col ∨ q row col) : Toggles pq s u where
  covered row col h := by
    rcases (hpq row col).1 h with h | h
    · rw [htu.uncovered row col (hd row col h), hst.covered row col h]
    · rw [htu.covered row col h, hst.uncovered row col fun hp => hd row col hp h]
  uncovered row col h := by
    rw [hpq, not_or] at h
    rw [htu.uncovered row col h.2, hst.uncovered row col h.1]
  collision := by
    rintro ⟨row, col, h, hon⟩
    by_cases hq : ∃ row col, q row col ∧ t.pixel row col = true
    · exact htu.collision hq
    · rw [htu.noCollision hq]
      refine hst.collision ⟨row, col, ((hpq row col).1 h).resolve_right fun hq' => hq ⟨row, col, hq', ?_⟩, hon⟩
      rw [hst.uncovered row col fun hp => hd row col hp hq', hon]
  noCollision h := by
    rw [htu.noCollision, hst.noCollision]
    · exact fun ⟨row, col, hp, hon⟩ => h ⟨row, col, (hpq row col).2 (.inl hp), hon⟩
    · rintro ⟨row, col, hq, hon⟩
      rw [hst.uncovered row col fun hp => hd row col hp hq] at hon
      exact h ⟨row, col, (hpq row col).2 (.inr hq), hon⟩
  otherRegs r hr := (htu.otherRegs r hr).trans (hst.otherRegs r hr)
  rest := by rw [htu.rest, hst.rest]

/-- One sprite bit: its cell is toggled if the bit is set. -/
theorem drawBit_toggles (vx vy : Byte) (r : Nat) (b : Byte) (s : State) (c : Nat) :
    Toggles (fun row col => spriteBit b c = true ∧ pixelRow vy r = row ∧ pixelCol vx c = col) s
      (drawBit vx vy r b s c) := by
  unfold drawBit
  split
  · rename_i hb
    refine ⟨?_, ?_, ?_, ?_, ?_, ?_⟩
    · rintro row col ⟨-, rfl, rfl⟩
      simp [State.pixel_togglePixel]
    · intro row col h
      rw [State.pixel_togglePixel, if_neg fun h' => h ⟨hb, h'.1.symm, h'.2.symm⟩]
    · rintro ⟨row, col, ⟨-, rfl, rfl⟩, hon⟩
      simp [State.readV_togglePixel, hon]
    · intro h
      rw [State.readV_togglePixel, if_neg fun h' => h ⟨_, _, ⟨hb, rfl, rfl⟩, h'.2⟩]
    · intro q hq
      rw [State.readV_togglePixel, if_neg fun h' => hq h'.1]
    · rw [State.togglePixel_eq]
  · exact Toggles.refl s (by simp_all)

/-- The first `m` column offsets of a row land on different columns. -/
theorem pixelCol_inj (vx : Byte) {c d : Nat} (hc : c < 64) (hd : d < 64) (h : pixelCol vx c = pixelCol vx d) : c = d := by
  have := congrArg Fin.val h
  simp only [pixelCol, Fin.val_ofNat] at this
  omega

theorem pixelRow_inj (vy : Byte) {c d : Nat} (hc : c < 32) (hd : d < 32) (h : pixelRow vy c = pixelRow vy d) : c = d := by
  have := congrArg Fin.val h
  simp only [pixelRow, Fin.val_ofNat] at this
  omega

/-- The first `m` bits of a sprite row. -/
theorem drawBits_toggles (vx vy : Byte) (r : Nat) (b : Byte) (s : State) (m : Nat) (hm : m ≤ 64) :
    Toggles (fun row col => ∃ c, c < m ∧ spriteBit b c = true ∧ pixelRow vy r = row ∧ pixelCol vx c = col) s
      ((List.range m).foldl (drawBit vx vy r b) s) := by
  induction m with
  | zero => exact Toggles.refl s (by simp)
  | succ m ih =>
    rw [List.range_succ, List.foldl_append]
    refine (ih (by omega)).trans (drawBit_toggles vx vy r b _ m) ?_ ?_
    · rintro row col ⟨c, hc, -, -, h⟩ ⟨-, -, h'⟩
      exact absurd (pixelCol_inj vx (by omega) (by omega) (h.trans h'.symm)) (by omega)
    · intro row col
      constructor
      · rintro ⟨c, hc, h⟩
        rcases Nat.lt_succ_iff_lt_or_eq.1 hc with hc | rfl
        · exact .inl ⟨c, hc, h⟩
        · exact .inr h
      · rintro (⟨c, hc, h⟩ | h)
        · exact ⟨c, by omega, h⟩
        · exact ⟨m, by omega, h⟩

/-- A drawing leaves every byte of memory alone. -/
theorem Toggles.readByte {cover : Fin 32 → Fin 64 → Prop} {s t : State} (h : Toggles cover s t) (a : Nat) :
    t.readByte a = s.readByte a := by
  rw [h.rest]; rfl

/-- Noting an access toggles nothing. -/
theorem noteAccess_toggles (s : State) (ea : Nat) : Toggles (fun _ _ => False) s (s.noteAccess ea) where
  covered _ _ h := h.elim
  uncovered _ _ _ := s.pixel_noteAccess ea _ _
  collision := fun ⟨_, _, h, _⟩ => h.elim
  noCollision _ := s.readV_noteAccess ea _
  otherRegs q _ := s.readV_noteAccess ea q
  rest := by rw [State.noteAccess_eq]

/-- One row: the byte at its address, bit by bit. -/
theorem drawRow_toggles (vx vy : Byte) (ea : Nat) (s : State) (r : Nat) :
    Toggles (fun row col => ∃ c, c < 8 ∧ spriteBit (s.readByte (ea + r)) c = true ∧ pixelRow vy r = row ∧
      pixelCol vx c = col) s (drawRow vx vy ea s r) := by
  refine (noteAccess_toggles s (ea + r)).trans
    (drawBits_toggles vx vy r (s.readByte (ea + r)) _ 8 (by omega)) (by simp) (by simp)

/-- Drawing the bits of a row notes nothing. -/
theorem drawBits_status (vx vy : Byte) (r : Nat) (b : Byte) (s : State) : (drawBits vx vy r b s).status = s.status := by
  unfold drawBits
  generalize List.range 8 = cs
  induction cs generalizing s with
  | nil => rfl
  | cons c cs ih =>
    rw [List.foldl_cons, ih]
    unfold drawBit
    split
    · rw [State.togglePixel_eq]
    · rfl

/-- The rows of a sprite of fewer than 32 rows: exactly the cells its set bits land on are toggled (R121, R124). -/
theorem drawRows_toggles (vx vy : Byte) (ea n : Nat) (s : State) (hn : n < 32) :
    Toggles (fun row col => ∃ r c, r < n ∧ c < 8 ∧ spriteBit (s.readByte (ea + r)) c = true ∧ pixelRow vy r = row ∧
      pixelCol vx c = col) s (drawRows vx vy ea n s) := by
  unfold drawRows
  induction n with
  | zero => exact Toggles.refl s (by simp)
  | succ n ih =>
    rw [List.range_succ, List.foldl_append]
    have ih := ih (by omega)
    refine ih.trans (drawRow_toggles vx vy ea _ n) ?_ ?_
    · rintro row col ⟨r, c, hr, -, -, h, -⟩ ⟨c', -, -, h', -⟩
      exact absurd (pixelRow_inj vy (by omega) (by omega) (h.trans h'.symm)) (by omega)
    · intro row col
      rw [ih.readByte]
      constructor
      · rintro ⟨r, c, hr, h⟩
        rcases Nat.lt_succ_iff_lt_or_eq.1 hr with hr | rfl
        · exact .inl ⟨r, c, hr, h⟩
        · exact .inr ⟨c, h⟩
      · rintro (⟨r, c, hr, h⟩ | ⟨c, h⟩)
        · exact ⟨r, c, by omega, h⟩
        · exact ⟨n, c, by omega, h⟩

/-- Drawing reports a wrap when its last row's address is 4096 or more. -/
theorem drawRows_status (vx vy : Byte) (ea n : Nat) (s : State) :
    (drawRows vx vy ea n s).status = { s.status with
      aw := s.status.aw || (decide (0 < n) && decide (4096 < ea + n)) } := by
  unfold drawRows
  induction n with
  | zero => simp
  | succ n ih =>
    have key : ((s.status.aw || (decide (0 < n) && decide (4096 < ea + n))) || decide (4096 ≤ ea + n)) =
        (s.status.aw || (decide (0 < n + 1) && decide (4096 < ea + (n + 1)))) := by
      rw [Bool.eq_iff_iff]
      simp only [Bool.or_eq_true, Bool.and_eq_true, decide_eq_true_eq]
      cases s.status.aw
      · simp; omega
      · simp
    rw [List.range_succ, List.foldl_append, List.foldl_cons, List.foldl_nil, drawRow, drawBits_status]
    simp only [State.memRead, State.noteAccess_eq, ih]
    rw [← key]

end Sys2Proof.Machine
end

