-- ==== Sys2Proof/Laws/Exec.lean ====
section
/-! SUPPORT. What `exec` can do, said once over all instructions: which parts of the state an instruction may write, and
which conditions it may raise. Statements about a whole cycle are derived from these two inversions. -/

namespace Sys2Proof.Machine

/-- What an instruction leaves alone, by the lists of the spec's prose (spec/10_state.md R12 to R20). -/
structure ExecFrame (i : Instr) (s t : State) : Prop where
  keypad : t.keypad = s.keypad
  ir : t.ir = s.ir
  run : t.run = s.run
  keySchedule : t.keySchedule = s.keySchedule
  random : (∀ x kk, i ≠ .rnd x kk) → t.rndSupply = s.rndSupply ∧ t.rndDrawn = s.rndDrawn
  index : i.writesIndex = false → t.i = s.i
  fb : i.writesScreen = false → t.fb = s.fb
  mem : i.writesMemory = false → t.mem = s.mem
  stack : (∀ nnn, i ≠ .call nnn) → t.stack = s.stack
  sp : (∀ nnn, i ≠ .call nnn) → i ≠ .ret → t.sp = s.sp
  pc : i.writesPc = false → t.pc = s.pc
  dt : (∀ x, i ≠ .ldDtVx x) → t.dt = s.dt
  st : (∀ x, i ≠ .ldStVx x) → t.st = s.st
  flag : i.writesFlag = false → i.xField ≠ some 15 → t.readV 15 = s.readV 15

/-- New registers, framebuffer and status: the frame of `Dxyn`. -/
theorem execFrame_of_drawn {i : Instr} (s : State) (v : Vector Byte 16) (fb : Vector FbRow 32) (st : Status)
    (hs : i.writesScreen = true) (hf : i.writesFlag = true) :
    ExecFrame i s { s with v := v, fb := fb, status := st } := by
  constructor <;> simp [hs, hf]

/-- New memory and status: the frame of `Fx33` and `Fx55`. -/
theorem execFrame_of_stored {i : Instr} (s : State) (m : Memory) (st : Status) (hm : i.writesMemory = true) :
    ExecFrame i s { s with mem := m, status := st } := by
  constructor <;> simp [hm, State.readV]

/-- New registers and status: the frame of `Fx65`. -/
theorem execFrame_of_loaded {i : Instr} (s : State) (v : Vector Byte 16) (st : Status)
    (hf : i.xField ≠ some 15 → v[(15 : Fin 16)] = s.readV 15) : ExecFrame i s { s with v := v, status := st } := by
  constructor
  case flag => exact fun _ hx => hf hx
  all_goals simp

/-- The frame of every instruction. -/
theorem exec_frame {i : Instr} {s t : State} (h : exec i s = .next t) : ExecFrame i s t := by
  cases i
  case ret =>
    simp only [exec, execRet] at h
    rcases s.pop_cases with ⟨_, e⟩ | ⟨_, e⟩ <;> simp only [e] at h <;> cases h <;> constructor <;>
      first | (intros; rfl) | simp_all [Instr.writesPc]
  case call nnn =>
    simp only [exec, execCall] at h
    rcases s.push_cases s.pc with ⟨_, e⟩ | ⟨_, e⟩ <;> simp only [e] at h <;> cases h <;> constructor <;>
      first | (intros; rfl) | simp_all [Instr.writesPc]
  case ldVxK x =>
    simp only [exec, execLdVxK] at h
    split at h <;> cases h <;> constructor <;>
      first | (intros; rfl) | simp [Instr.writesPc, Instr.xField, State.rollBackPc]
    intro _ a b; exact absurd b.symm a
  case drw x y n =>
    cases h
    rw [(drawRows_toggles _ _ _ _ (s.writeV 15 0) (Nat.lt_trans n.isLt (by decide))).rest]
    exact execFrame_of_drawn s _ _ _ rfl rfl
  case ldB x => cases h; rw [s.storeBytes_eq]; exact execFrame_of_stored s _ _ rfl
  case storeRegs x => cases h; rw [s.storeBytes_eq]; exact execFrame_of_stored s _ _ rfl
  case loadRegs x =>
    cases h
    rw [s.loadBytes_eq]
    refine execFrame_of_loaded s _ _ fun hx => s.readV_loadBytes_of_not_mem _ _ _ ?_
    rw [mem_regsUpTo]
    exact fun hle => hx (congrArg some (le_antisymm (Fin.le_last x) hle))
  all_goals
    simp only [exec, execCls, execSys, execJp, execSeImm, execSneImm, execSeReg, execLdImm, execAddImm, execLdReg,
      execOrReg, execAndReg, execXorReg, execAddReg, execSubReg, execShr, execSubnReg, execShl, execUndef8, execSneReg,
      execLdI, execJpV0, execRnd, execSkp, execSknp, execUndefE, execLdVxDt, execLdDtVx, execLdStVx, execAddI, execLdF,
      execUndefF, State.skipIf_eq, State.writeWithFlag, Host.Outcome.next.injEq] at h
    cases h
    constructor <;> simp [Instr.writesIndex, Instr.writesScreen, Instr.writesPc, Instr.writesFlag, Instr.xField]
    try (intro a b; exact absurd b.symm a)

/-- The instruction makes a data access at an effective address of 4096 or more (R143 b to d). -/
def AccessesAboveTop (i : Instr) (s : State) : Prop :=
  (∃ x y n, i = .drw x y n ∧ 0 < n.toNat ∧ 4096 ≤ s.i.toNat + n.toNat - 1) ∨
  (∃ x, i = .ldB x ∧ 4096 ≤ s.i.toNat + 2) ∨
  (∃ x : Reg, (i = .storeRegs x ∨ i = .loadRegs x) ∧ 4096 ≤ s.i.toNat + x.val)

/-- The instruction is a call on a full stack (R141). -/
def Overflows (i : Instr) (s : State) : Prop := (∃ nnn, i = .call nnn) ∧ s.sp.val = 16

/-- The instruction is a return on an empty stack (R142). -/
def Underflows (i : Instr) (s : State) : Prop := i = .ret ∧ s.sp.val = 0

/-- The conditions an instruction raises (R140): each bit is set exactly by its own cause, and never cleared (R78). -/
structure ExecConditions (i : Instr) (s t : State) : Prop where
  sovf : t.status.sovf = true ↔ s.status.sovf = true ∨ Overflows i s
  sunf : t.status.sunf = true ↔ s.status.sunf = true ∨ Underflows i s
  aw : t.status.aw = true ↔ s.status.aw = true ∨ AccessesAboveTop i s
  sticky : t.stackFaultSeen = true ↔ s.stackFaultSeen = true ∨ Overflows i s ∨ Underflows i s

/-- An instruction that only reports a wrap meets the conditions when the wrap is its own. -/
theorem execConditions_of_aw {i : Instr} {s t : State} {p : Bool}
    (hst : t.status = { s.status with aw := s.status.aw || p }) (hk : t.stackFaultSeen = s.stackFaultSeen)
    (hp : p = true ↔ AccessesAboveTop i s) (ho : ¬Overflows i s) (hu : ¬Underflows i s) : ExecConditions i s t := by
  constructor <;> simp [hst, hk, ho, hu, hp]

/-- The conditions of every instruction. -/
theorem exec_conditions {i : Instr} {s t : State} (h : exec i s = .next t) : ExecConditions i s t := by
  cases i
  case ret =>
    simp only [exec, execRet] at h
    rcases s.pop_cases with ⟨h', e⟩ | ⟨h', e⟩ <;> simp only [e] at h <;> cases h <;> constructor <;>
      simp [AccessesAboveTop, Overflows, Underflows, h', Status.report, Condition.isStack] <;> omega
  case call nnn =>
    simp only [exec, execCall] at h
    rcases s.push_cases s.pc with ⟨h', e⟩ | ⟨h', e⟩ <;> simp only [e] at h <;> cases h <;> constructor <;>
      simp [AccessesAboveTop, Overflows, Underflows, h', Status.report, Condition.isStack] <;> omega
  case ldVxK x =>
    simp only [exec, execLdVxK] at h
    split at h <;> cases h <;> constructor <;>
      simp [AccessesAboveTop, Overflows, Underflows, State.rollBackPc]
  case drw x y n =>
    cases h
    have T := drawRows_toggles (s.readV x) (s.readV y) (s.effAddr 0) n.toNat (s.writeV 15 0)
      (Nat.lt_trans n.isLt (by decide))
    refine execConditions_of_aw (drawRows_status _ _ _ _ (s.writeV 15 0)) (by rw [T.rest]; rfl) ?_
      (by simp [Overflows]) (by simp [Underflows])
    simp only [Bool.and_eq_true, decide_eq_true_eq]
    simp only [State.effAddr]
    constructor
    · exact fun h => .inl ⟨x, y, n, rfl, h.1, by have := h.1; have := h.2; omega⟩
    · rintro (⟨_, _, _, he, h0, h1⟩ | ⟨_, he, _⟩ | ⟨_, he | he, _⟩) <;> cases he
      exact ⟨h0, by omega⟩
  case ldB x =>
    cases h
    refine execConditions_of_aw (s.storeBytes_status _ _) (by rw [s.storeBytes_eq]) ?_
      (by simp [Overflows]) (by simp [Underflows])
    simp [AccessesAboveTop, State.effAddr, bcdDigits]; omega
  case storeRegs x =>
    cases h
    refine execConditions_of_aw (s.storeBytes_status _ _) (by rw [s.storeBytes_eq]) ?_
      (by simp [Overflows]) (by simp [Underflows])
    simp [AccessesAboveTop, State.effAddr]; omega
  case loadRegs x =>
    cases h
    refine execConditions_of_aw (s.loadBytes_status _ _) (by rw [s.loadBytes_eq]) ?_
      (by simp [Overflows]) (by simp [Underflows])
    simp [AccessesAboveTop, State.effAddr]; omega
  all_goals
    simp only [exec, execCls, execSys, execJp, execSeImm, execSneImm, execSeReg, execLdImm, execAddImm, execLdReg,
      execOrReg, execAndReg, execXorReg, execAddReg, execSubReg, execShr, execSubnReg, execShl, execUndef8, execSneReg,
      execLdI, execJpV0, execRnd, execSkp, execSknp, execUndefE, execLdVxDt, execLdDtVx, execLdStVx, execAddI, execLdF,
      execUndefF, State.skipIf_eq, State.writeWithFlag, Host.Outcome.next.injEq] at h
    cases h
    constructor <;> simp [AccessesAboveTop, Overflows, Underflows]

/-- Every instruction keeps memory canonical. -/
theorem exec_wf {i : Instr} {s t : State} (hs : s.mem.wf) (h : exec i s = .next t) : t.mem.wf := by
  by_cases hw : i.writesMemory = false
  · rw [(exec_frame h).mem hw]; exact hs
  · cases i <;> simp [Instr.writesMemory] at hw <;> cases h <;> exact State.wf_storeBytes hs _ _

end Sys2Proof.Machine
end

