-- ==== Sys2Proof/Laws/PerInstr.lean ====
section
/-! SUPPORT. A law of the syntax, one lemma per constructor: the encoder writes the family nibble that spec/opcode_table.json
gives the instruction's row (spec/30_encoding.md R54, R61). -/

namespace Sys2Proof

/-- The opcode family of a row: the top nibble of its pattern (R54). -/
def Laws.familyOf : Instr → Nat
  | .cls | .ret | .sys _ => 0x0
  | .jp _ => 0x1
  | .call _ => 0x2
  | .seImm _ _ => 0x3
  | .sneImm _ _ => 0x4
  | .seReg _ _ => 0x5
  | .ldImm _ _ => 0x6
  | .addImm _ _ => 0x7
  | .ldReg _ _ | .orReg _ _ | .andReg _ _ | .xorReg _ _ | .addReg _ _ | .subReg _ _ | .shr _ _ => 0x8
  | .subnReg _ _ | .shl _ _ | .undef8 _ _ _ => 0x8
  | .sneReg _ _ => 0x9
  | .ldI _ => 0xA
  | .jpV0 _ => 0xB
  | .rnd _ _ => 0xC
  | .drw _ _ _ => 0xD
  | .skp _ | .sknp _ | .undefE _ _ => 0xE
  | .ldVxDt _ | .ldVxK _ | .ldDtVx _ | .ldStVx _ | .addI _ | .ldF _ | .ldB _ | .storeRegs _ | .loadRegs _ => 0xF
  | .undefF _ _ => 0xF

namespace Laws.EncodeFamily

/-- The top nibble of an instruction's word is its family. -/
def Statement (i : Instr) : Prop := (opOf (encode i)).toNat = familyOf i

theorem cls : Statement (.cls) := by
  unfold Statement; decide
theorem ret : Statement (.ret) := by
  unfold Statement; decide
theorem sys (nnn : Addr) : Statement (.sys nnn) := by
  simp [Statement, encode, familyOf]
theorem jp (nnn : Addr) : Statement (.jp nnn) := by
  simp [Statement, encode, familyOf]
theorem call (nnn : Addr) : Statement (.call nnn) := by
  simp [Statement, encode, familyOf]
theorem seImm (x : Reg) (kk : Byte) : Statement (.seImm x kk) := by
  simp [Statement, encode, familyOf]
theorem sneImm (x : Reg) (kk : Byte) : Statement (.sneImm x kk) := by
  simp [Statement, encode, familyOf]
theorem seReg (x y : Reg) : Statement (.seReg x y) := by
  simp [Statement, encode, familyOf]
theorem ldImm (x : Reg) (kk : Byte) : Statement (.ldImm x kk) := by
  simp [Statement, encode, familyOf]
theorem addImm (x : Reg) (kk : Byte) : Statement (.addImm x kk) := by
  simp [Statement, encode, familyOf]
theorem ldReg (x y : Reg) : Statement (.ldReg x y) := by
  simp [Statement, encode, familyOf]
theorem orReg (x y : Reg) : Statement (.orReg x y) := by
  simp [Statement, encode, familyOf]
theorem andReg (x y : Reg) : Statement (.andReg x y) := by
  simp [Statement, encode, familyOf]
theorem xorReg (x y : Reg) : Statement (.xorReg x y) := by
  simp [Statement, encode, familyOf]
theorem addReg (x y : Reg) : Statement (.addReg x y) := by
  simp [Statement, encode, familyOf]
theorem subReg (x y : Reg) : Statement (.subReg x y) := by
  simp [Statement, encode, familyOf]
theorem shr (x y : Reg) : Statement (.shr x y) := by
  simp [Statement, encode, familyOf]
theorem subnReg (x y : Reg) : Statement (.subnReg x y) := by
  simp [Statement, encode, familyOf]
theorem shl (x y : Reg) : Statement (.shl x y) := by
  simp [Statement, encode, familyOf]
theorem undef8 (x y : Reg) (n : Nibble) : Statement (.undef8 x y n) := by
  simp [Statement, encode, familyOf]
theorem sneReg (x y : Reg) : Statement (.sneReg x y) := by
  simp [Statement, encode, familyOf]
theorem ldI (nnn : Addr) : Statement (.ldI nnn) := by
  simp [Statement, encode, familyOf]
theorem jpV0 (nnn : Addr) : Statement (.jpV0 nnn) := by
  simp [Statement, encode, familyOf]
theorem rnd (x : Reg) (kk : Byte) : Statement (.rnd x kk) := by
  simp [Statement, encode, familyOf]
theorem drw (x y : Reg) (n : Nibble) : Statement (.drw x y n) := by
  simp [Statement, encode, familyOf]
theorem skp (x : Reg) : Statement (.skp x) := by
  simp [Statement, encode, familyOf]
theorem sknp (x : Reg) : Statement (.sknp x) := by
  simp [Statement, encode, familyOf]
theorem undefE (x : Reg) (kk : Byte) : Statement (.undefE x kk) := by
  simp [Statement, encode, familyOf]
theorem ldVxDt (x : Reg) : Statement (.ldVxDt x) := by
  simp [Statement, encode, familyOf]
theorem ldVxK (x : Reg) : Statement (.ldVxK x) := by
  simp [Statement, encode, familyOf]
theorem ldDtVx (x : Reg) : Statement (.ldDtVx x) := by
  simp [Statement, encode, familyOf]
theorem ldStVx (x : Reg) : Statement (.ldStVx x) := by
  simp [Statement, encode, familyOf]
theorem addI (x : Reg) : Statement (.addI x) := by
  simp [Statement, encode, familyOf]
theorem ldF (x : Reg) : Statement (.ldF x) := by
  simp [Statement, encode, familyOf]
theorem ldB (x : Reg) : Statement (.ldB x) := by
  simp [Statement, encode, familyOf]
theorem storeRegs (x : Reg) : Statement (.storeRegs x) := by
  simp [Statement, encode, familyOf]
theorem loadRegs (x : Reg) : Statement (.loadRegs x) := by
  simp [Statement, encode, familyOf]
theorem undefF (x : Reg) (kk : Byte) : Statement (.undefF x kk) := by
  simp [Statement, encode, familyOf]

end Laws.EncodeFamily

end Sys2Proof
end

