-- ==== Sys2Proof/Laws/Ports.lean ====
section
/-! SUPPORT. What the load port's copy does to memory (spec/70_reset_and_hazards.md R161). -/

namespace Sys2Proof.Machine

variable (s : State)

/-- A copy touches memory only. -/
theorem State.putBytes_eq (ea : Nat) (bs : List Byte) : s.putBytes ea bs = { s with mem := (s.putBytes ea bs).mem } := by
  induction bs generalizing s ea with
  | nil => rfl
  | cons b bs ih => rw [State.putBytes, ih]; rfl

/-- A copy leaves every byte outside its own alone. -/
theorem State.readByte_putBytes_of_outside (ea a : Nat) (bs : List Byte)
    (h : ∀ k, k < bs.length → a % 4096 ≠ (ea + k) % 4096) : (s.putBytes ea bs).readByte a = s.readByte a := by
  induction bs generalizing s ea with
  | nil => rfl
  | cons b bs ih =>
    rw [State.putBytes, ih, readByte_putByte, if_neg (by simpa using h 0 (by simp))]
    intro k hk
    rw [Nat.add_assoc, Nat.add_comm 1 k]
    exact h (k + 1) (by simpa using hk)

/-- A copy of at most 4096 bytes puts its k-th byte at its k-th address. -/
theorem State.readByte_putBytes (ea : Nat) (bs : List Byte) (hl : bs.length ≤ 4096) (k : Nat) (hk : k < bs.length) :
    (s.putBytes ea bs).readByte (ea + k) = bs[k] := by
  induction bs generalizing s ea k with
  | nil => simp at hk
  | cons b bs ih =>
    simp only [List.length_cons] at hl hk
    cases k with
    | zero =>
      rw [State.putBytes, readByte_putBytes_of_outside, readByte_putByte]
      · simp
      · intro j hj; omega
    | succ k =>
      have := ih (s.putByte ea b) (ea + 1) (by omega) k (by omega)
      rw [State.putBytes, ← Nat.add_assoc, Nat.add_right_comm, this]
      rfl

/-- A copy keeps the canonical form. -/
theorem State.wf_putBytes {s : State} (h : s.mem.wf) (ea : Nat) (bs : List Byte) : (s.putBytes ea bs).mem.wf := by
  induction bs generalizing s ea with
  | nil => exact h
  | cons b bs ih => exact ih (wf_putByte h ea b) (ea + 1)

end Sys2Proof.Machine
end

