-- ==== Sys2Proof/Tests/Slice0.lean ====
section
/-! SUPPORT. The model's own tests: ill-formed terms, one word per constructor written out from the patterns of
spec/30_encoding.md R61, single steps from the vectors of spec/95_test_vectors.md (named in each comment), and for every
statement with hypotheses a state that meets them. -/

open Sys2Proof Sys2Proof.Machine

namespace Sys2Proof.Tests

/-! ## Helpers -/

/-- One cycle with the word stored where the fetch goes, and what is read from the next state. -/
def after {α : Type} (w : Nat) (s : State) (f : State → α) : Option α :=
  match step (s.withFetchWord 16 w) with
  | .next t => some (f t)
  | .fault _ => none
  | .refused _ => none

/-- The state after reset with some registers set. -/
def regs (rs : List (Reg × Byte)) : State := rs.foldl (fun s p => s.writeV p.1 p.2) State.reset

/-- A state with bytes in memory from an address on. -/
def withBytes (s : State) (a : Nat) (bs : List Byte) : State := s.putBytes a bs

/-- The bytes of memory from an address on. -/
def bytesAt (a n : Nat) (s : State) : List Byte := (List.range n).map fun k => s.readByte (a + k)

/-! ## WellFormed refuses a no-op row that claims a defined word -/

theorem test_wf_sys_cls : (Instr.sys 0x120).wf = false := by decide
theorem test_wf_sys_ret : (Instr.sys 0x0EE).wf = false := by decide
theorem test_wf_undef8 : (Instr.undef8 1 2 0x7).wf = false := by decide
theorem test_wf_undefE_skp : (Instr.undefE 3 0x9E).wf = false := by decide
theorem test_wf_undefE_sknp : (Instr.undefE 3 0xA1).wf = false := by decide
theorem test_wf_undefF : (Instr.undefF 0 0x65).wf = false := by decide
theorem test_wf_accepts : (Instr.sys 0x123).wf && (Instr.undef8 1 2 0x9).wf && (Instr.undefF 0 0x75).wf = true := by decide

/-! ## Decoding, a word per constructor from the patterns of R61 -/

theorem test_decode_cls : decodeWord 0x00E0 = .cls := by decide
theorem test_decode_ret : decodeWord 0x00EE = .ret := by decide
theorem test_decode_sys : decodeWord 0x0123 = .sys 0x123 := by decide
theorem test_decode_jp : decodeWord 0x1ABC = .jp 0xABC := by decide
theorem test_decode_call : decodeWord 0x2400 = .call 0x400 := by decide
theorem test_decode_seImm : decodeWord 0x3A05 = .seImm 10 0x05 := by decide
theorem test_decode_sneImm : decodeWord 0x4A05 = .sneImm 10 0x05 := by decide
theorem test_decode_seReg : decodeWord 0x5120 = .seReg 1 2 := by decide
theorem test_decode_ldImm : decodeWord 0x6FAB = .ldImm 15 0xAB := by decide
theorem test_decode_addImm : decodeWord 0x7003 = .addImm 0 0x03 := by decide
theorem test_decode_ldReg : decodeWord 0x8120 = .ldReg 1 2 := by decide
theorem test_decode_orReg : decodeWord 0x8121 = .orReg 1 2 := by decide
theorem test_decode_andReg : decodeWord 0x8122 = .andReg 1 2 := by decide
theorem test_decode_xorReg : decodeWord 0x8123 = .xorReg 1 2 := by decide
theorem test_decode_addReg : decodeWord 0x8124 = .addReg 1 2 := by decide
theorem test_decode_subReg : decodeWord 0x8125 = .subReg 1 2 := by decide
theorem test_decode_shr : decodeWord 0x8126 = .shr 1 2 := by decide
theorem test_decode_subnReg : decodeWord 0x8127 = .subnReg 1 2 := by decide
theorem test_decode_shl : decodeWord 0x812E = .shl 1 2 := by decide
theorem test_decode_undef8 : decodeWord 0x812F = .undef8 1 2 0xF := by decide
theorem test_decode_sneReg : decodeWord 0x9120 = .sneReg 1 2 := by decide
theorem test_decode_ldI : decodeWord 0xA300 = .ldI 0x300 := by decide
theorem test_decode_jpV0 : decodeWord 0xB342 = .jpV0 0x342 := by decide
theorem test_decode_rnd : decodeWord 0xC10F = .rnd 1 0x0F := by decide
theorem test_decode_drw : decodeWord 0xD235 = .drw 2 3 0x5 := by decide
theorem test_decode_skp : decodeWord 0xE39E = .skp 3 := by decide
theorem test_decode_sknp : decodeWord 0xE3A1 = .sknp 3 := by decide
theorem test_decode_undefE : decodeWord 0xE0A0 = .undefE 0 0xA0 := by decide
theorem test_decode_ldVxDt : decodeWord 0xF307 = .ldVxDt 3 := by decide
theorem test_decode_ldVxK : decodeWord 0xF50A = .ldVxK 5 := by decide
theorem test_decode_ldDtVx : decodeWord 0xF215 = .ldDtVx 2 := by decide
theorem test_decode_ldStVx : decodeWord 0xF218 = .ldStVx 2 := by decide
theorem test_decode_addI : decodeWord 0xF11E = .addI 1 := by decide
theorem test_decode_ldF : decodeWord 0xF229 = .ldF 2 := by decide
theorem test_decode_ldB : decodeWord 0xFA33 = .ldB 10 := by decide
theorem test_decode_storeRegs : decodeWord 0xF255 = .storeRegs 2 := by decide
theorem test_decode_loadRegs : decodeWord 0xF265 = .loadRegs 2 := by decide
theorem test_decode_undefF : decodeWord 0xF075 = .undefF 0 0x75 := by decide

/-- Ignored bits (R59; T6 to T9). -/
theorem test_decode_ignored_bits : decodeWord 0x0120 = .cls ∧ decodeWord 0x0ABE = .ret ∧ decodeWord 0x512F = .seReg 1 2 ∧
    decodeWord 0xE10E = .skp 1 ∧ decodeWord 0x0000 = .cls := by decide
theorem test_decode_bytes : decodeBytes [0x60, 0x05, 0x70] = .ok (.ldImm 0 0x05, [0x70]) := by rfl
theorem test_decode_one_byte : decodeBytes [0x60] = .error .oneByte := by rfl
theorem test_decode_table_word : decodeTableWord 16 0x8F14 = some (.addReg 15 1) := by decide
theorem test_table_has_38_rows : opcodeTable.length = 38 := by decide

/-! ## Single cycles -/

-- T1, T10
theorem test_sys_ticks : after 0x0123 (State.reset.setDt 2) (fun t => (t.pc, t.dt, t.st, t.ir)) =
    some (0x202, 1, 0, 0x0123) := by decide
-- T2
theorem test_undef8_keeps_registers : after 0x8129 (regs [(1, 7), (2, 9), (15, 3)])
    (fun t => (t.pc, t.readV 1, t.readV 2, t.readV 15)) = some (0x202, 7, 9, 3) := by decide
-- T3
theorem test_undefE_no_skip : after 0xE0A0 (regs [(0, 5)]) State.pc = some 0x202 := by decide
-- T4
theorem test_undefF_noop : after 0xF075 (regs [(0, 5)]) (fun t => (t.pc, t.readV 0)) = some (0x202, 5) := by decide
-- T11: the low byte of the fetch wraps, and AW is reported.
theorem test_fetch_wraps : after 0x6123 (State.reset.setPc 0x0FFF) (fun t => (t.readV 1, t.pc, t.statusValue)) =
    some (0x23, 0x1001, 4) := by decide
-- T20
theorem test_jp : after 0x1ABC State.reset State.pc = some 0x0ABC := by decide
-- T23
theorem test_call_pushes_advanced_pc : after 0x2400 State.reset (fun t => (t.stack[0], t.sp, t.pc)) =
    some (0x0202, 1, 0x0400) := by decide
-- T25
theorem test_call_full : after 0x2400 { State.reset with sp := 16 } (fun t => (t.statusValue, t.sp, t.pc, t.stackFaultSeen)) =
    some (1, 16, 0x0202, true) := by decide
-- T27
theorem test_ret_pops : after 0x00EE { State.reset with sp := 2, stack := State.reset.stack.set 1 0x0ABC }
    (fun t => (t.pc, t.sp, t.stack[1])) = some (0x0ABC, 1, 0x0ABC) := by decide
-- T26
theorem test_ret_empty : after 0x00EE State.reset (fun t => (t.statusValue, t.sp, t.pc)) = some (2, 0, 0x0202) := by decide
-- T40, T41
theorem test_seImm : after 0x3A05 (regs [(10, 5)]) State.pc = some 0x204 ∧
    after 0x3A05 (regs [(10, 6)]) State.pc = some 0x202 := by decide
-- T42, T43
theorem test_sneImm : after 0x4A05 (regs [(10, 5)]) State.pc = some 0x202 ∧
    after 0x4A05 (regs [(10, 6)]) State.pc = some 0x204 := by decide
-- T44, T45
theorem test_seReg : after 0x5120 (regs [(1, 7), (2, 7)]) State.pc = some 0x204 ∧
    after 0x5120 (regs [(1, 7), (2, 8)]) State.pc = some 0x202 := by decide
-- T47, T48
theorem test_sneReg : after 0x9120 (regs [(1, 7), (2, 8)]) State.pc = some 0x204 ∧
    after 0x9120 (regs [(1, 7), (2, 7)]) State.pc = some 0x202 := by decide
-- T55: a skip at the top of the 16-bit counter.
theorem test_skip_wraps : after 0x3000 (State.reset.setPc 0xFFFE) (fun t => (t.pc, t.statusValue)) = some (0x0002, 4) := by
  decide
-- T30, T29
theorem test_jpV0 : after 0xB342 (regs [(3, 0x42)]) State.pc = some 0x0342 ∧
    after 0xBFFF (regs [(0, 0xFF)]) (fun t => (t.pc, t.statusValue)) = some (0x10FE, 0) := by decide
-- T60
theorem test_ldImm : after 0x6FAB State.reset (State.readV · 15) = some 0xAB := by decide
-- T61
theorem test_addImm_no_carry : after 0x7301 (regs [(3, 0xFF), (15, 0x55)]) (fun t => (t.readV 3, t.readV 15)) =
    some (0x00, 0x55) := by decide
-- T63
theorem test_ldReg : after 0x8120 (regs [(2, 0x3C)]) (State.readV · 1) = some 0x3C := by decide
-- T64
theorem test_orReg : after 0x8121 (regs [(1, 0xF0), (2, 0x3C), (15, 9)]) (fun t => (t.readV 1, t.readV 15)) =
    some (0xFC, 9) := by decide
-- T65
theorem test_andReg : after 0x8122 (regs [(1, 0xF0), (2, 0x3C), (15, 9)]) (fun t => (t.readV 1, t.readV 15)) =
    some (0x30, 9) := by decide
-- T66
theorem test_xorReg : after 0x8123 (regs [(1, 0xF0), (2, 0x3C), (15, 9)]) (fun t => (t.readV 1, t.readV 15)) =
    some (0xCC, 9) := by decide
-- T68
theorem test_addReg_carry : after 0x8124 (regs [(1, 0xC8), (2, 0x64)]) (fun t => (t.readV 1, t.readV 15)) =
    some (0x2C, 1) := by decide
-- T72: the flag wins.
theorem test_addReg_vf : after 0x8F14 (regs [(15, 0xF0), (1, 0x20)]) (State.readV · 15) = some 1 := by decide
-- S3
theorem test_subReg : after 0x8125 (regs [(1, 0x10), (2, 0x20)]) (fun t => (t.readV 1, t.readV 15)) = some (0xF0, 0) ∧
    after 0x8125 (regs [(1, 0x20), (2, 0x10)]) (fun t => (t.readV 1, t.readV 15)) = some (0x10, 1) := by decide
-- T74: equal operands give 0.
theorem test_subReg_equal : after 0x8445 (regs [(4, 0x33), (15, 1)]) (fun t => (t.readV 4, t.readV 15)) = some (0, 0) := by
  decide
-- T76: Vy takes no part.
theorem test_shr : after 0x8126 (regs [(1, 0x04), (2, 0xFF), (15, 0xAA)]) (fun t => (t.readV 1, t.readV 2, t.readV 15)) =
    some (0x02, 0xFF, 0) := by decide
-- T78
theorem test_shr_vf : after 0x8F06 (regs [(15, 0x02)]) (State.readV · 15) = some 0 := by decide
-- S3
theorem test_subnReg : after 0x8127 (regs [(1, 0x10), (2, 0x20)]) (fun t => (t.readV 1, t.readV 15)) = some (0x10, 1) := by
  decide
-- T83
theorem test_shl : after 0x810E (regs [(1, 0x80)]) (fun t => (t.readV 1, t.readV 15)) = some (0x00, 1) := by decide
-- T84
theorem test_rnd : after 0xC10F (State.reset.supplyRandom [0xA7, 0x11]) (fun t => (t.readV 1, t.rndSupply)) =
    some (0x07, [0x11]) := by decide
-- T85: the source is consulted once even when kk is 0; the free byte is drawn when no byte is supplied.
theorem test_rnd_counts : after 0xC100 State.reset State.rndDrawn = some 1 := by decide
-- T90
theorem test_ldI : after 0xA300 (State.reset.setI 0xFFFF) State.i = some 0x0300 := by decide
-- T92
theorem test_addI_no_flag : after 0xF11E ((regs [(1, 0x01), (15, 7)]).setI 0x0FFF) (fun t => (t.i, t.readV 15, t.statusValue)) =
    some (0x1000, 7, 0) := by decide
-- T94, T96
theorem test_ldF : after 0xF229 (regs [(2, 0x0A)]) State.i = some 0x0082 ∧
    after 0xF229 (regs [(2, 0x1A)]) State.i = some 0x0082 := by decide
-- S8
theorem test_ldB : after 0xFA33 ((regs [(10, 0x9D)]).setI 0x300) (bytesAt 0x300 3) = some [1, 5, 7] := by decide
-- T98
theorem test_ldB_wraps : after 0xF333 ((regs [(3, 255)]).setI 0x0FFF)
    (fun t => (t.readByte 0xFFF, t.readByte 0x000, t.readByte 0x001, t.statusValue, t.i)) = some (2, 5, 5, 4, 0x0FFF) := by
  decide
-- T100
theorem test_storeRegs : after 0xF255 ((withBytes (regs [(0, 0x11), (1, 0x22), (2, 0x33)]) 0x303 [0xEE]).setI 0x300)
    (fun t => (bytesAt 0x300 4 t, t.i)) = some ([0x11, 0x22, 0x33, 0xEE], 0x300) := by decide
-- T103
theorem test_loadRegs : after 0xF265 ((withBytes (regs [(3, 0x99)]) 0x300 [0x01, 0x05, 0x07]).setI 0x300)
    (fun t => (t.readV 0, t.readV 1, t.readV 2, t.readV 3, t.i)) = some (1, 5, 7, 0x99, 0x300) := by decide
-- T104: the font.
theorem test_loadRegs_font : after 0xF465 (State.reset.setI 0x050) (fun t => (t.readV 0, t.readV 1, t.readV 4)) =
    some (0xF0, 0x90, 0xF0) := by decide
-- T5
theorem test_cls : after 0x0000 (State.reset.setPixel 3 3 true) (State.pixel · 3 3) = some false := by decide
-- T112: each coordinate wraps on its own.
theorem test_drw_wraps : after 0xD232 ((withBytes (regs [(2, 255), (3, 255)]) 0x300 [0x81, 0x81]).setI 0x300)
    (fun t => (t.pixel 31 63, t.pixel 31 6, t.pixel 0 63, t.pixel 0 6, t.pixel 0 0, t.readV 15)) =
    some (true, true, true, true, false, 0) := by decide
-- T111: a collision, and the bit order.
theorem test_drw_collision : after 0xD011
    (((withBytes State.reset 0x301 [0x60]).setPixel 0 0 true).setPixel 0 1 true |>.setI 0x301)
    (fun t => (t.pixel 0 0, t.pixel 0 1, t.pixel 0 2, t.readV 15)) = some (true, false, true, 1) := by decide
-- T50, T54
theorem test_skp : after 0xE39E { regs [(3, 0x0A)] with keypad := 0x0400 } State.pc = some 0x204 ∧
    after 0xE39E { regs [(3, 0x1A)] with keypad := 0x0400 } State.pc = some 0x204 := by decide
-- T52, T53
theorem test_sknp : after 0xE3A1 (regs [(3, 0x0A)]) State.pc = some 0x204 ∧
    after 0xE3A1 { regs [(3, 0x0A)] with keypad := 0x0400 } State.pc = some 0x202 := by decide
-- T120
theorem test_wait_for_key : after 0xF50A (State.reset.setDt 3) (fun t => (t.pc, t.dt, t.readV 5)) = some (0x200, 2, 0) := by
  decide
-- T122: keys 3 and 9, set by the host before the cycle.
theorem test_key_lowest : after 0xF50A (State.reset.scheduleKeys [0x0208]) (fun t => (t.readV 5, t.pc)) =
    some (0x03, 0x202) := by decide
-- T124
theorem test_ldVxDt : after 0xF307 (State.reset.setDt 9) (fun t => (t.readV 3, t.dt)) = some (9, 8) := by decide
-- T125, T126
theorem test_ldDtVx : after 0xF215 (regs [(2, 10)]) State.dt = some 9 ∧
    after 0xF215 ((regs [(2, 0)]).setDt 7) State.dt = some 0 := by decide
-- T128
theorem test_ldStVx : after 0xF218 (regs [(2, 255)]) State.st = some 254 := by decide
-- The keypad mutator (R19): set, then clear.
theorem test_set_key : (State.reset.setKey 10 true).keypad = 0x0400 ∧
    ((State.reset.setKey 10 true).setKey 10 false).keypad = 0 := by decide

/-! ## Witnesses: states that meet the hypotheses of the statements -/

theorem witness_DecodeOfEncode : (Instr.undef8 1 2 0xF).wf = true ∧ (Instr.drw 15 15 15).wf = true := by decide
theorem witness_StepRunsDecoded :
    decodeBytes ((regs []).readByte 0x200 :: (regs []).readByte 0x201 :: []) = .ok (.cls, []) := by rfl
theorem witness_UndefinedOpcodesAreNoOps :
    undefinedWord ((State.reset.withFetchWord 16 0xF075).wordAt 0x200) = true := by decide
theorem witness_CanonicalMemoryIsUnique : Memory.wf ⟨[(0x050, 0x00), (0xFFF, 0x01)]⟩ := by decide
theorem witness_LoadProgramCopies_fits : State.reset.run = .idle ∧ (List.replicate 3584 (0x12 : Byte)).length ≤ 3584 :=
  ⟨rfl, Nat.le_of_eq List.length_replicate⟩
theorem witness_LoadProgramCopies_long : State.reset.run = .idle ∧ 3584 < (List.replicate 3585 (0x12 : Byte)).length :=
  ⟨rfl, Nat.lt_of_lt_of_eq (Nat.lt_succ_self 3584) List.length_replicate.symm⟩
theorem witness_LoadProgramCopies_running : ({ State.reset with run := .running } : State).run = .running := rfl
-- The edges of the reset memory (R27, R43).
theorem witness_ResetValues : [0x04F, 0x050, 0x09F, 0x0A0, 0xFFF].map State.reset.readByte = [0, 0xF0, 0x80, 0, 0] := by decide
theorem witness_CallPushesAndJumps : (({ State.reset with sp := 15 } : State).sp).val < 16 := by decide
theorem witness_CallOnFullStackReports : (({ State.reset with sp := 16 } : State).sp).val = 16 := by decide
theorem witness_RetPops : (({ State.reset with sp := 16 } : State).sp).val = (15 : Fin 16).val + 1 := by decide
theorem witness_RetOnEmptyStackReports : State.reset.sp.val = 0 := by decide
theorem witness_RetUndoesCall : ∃ t, State.reset.sp.val < 16 ∧ exec (.call 0x400) State.reset = .next t ∧
    ∀ k : Fin 16, k.val < t.sp.val → t.stack[k] = t.stack[k] := ⟨_, by decide, rfl, fun _ _ => rfl⟩
theorem witness_KeypadSkips : ((regs [(3, 0x1F)]).readV 3).toNat % 16 = (15 : Key).val := by decide
theorem witness_PushAndPop : (∃ t, State.reset.push 0x202 = some t) ∧
    ∃ p, ({ State.reset with sp := 16 } : State).pop = some p := ⟨⟨_, rfl⟩, ⟨_, rfl⟩⟩
theorem witness_LoadUndoesStore : ∃ t, exec (.storeRegs 15) (regs [(15, 7)]) = .next t ∧ t.i = t.i ∧ t.mem = t.mem :=
  ⟨_, rfl, rfl, rfl⟩
theorem witness_DrawTwiceRestores : ∃ t, exec (.drw 15 15 0x2) (State.reset.setI 0x050) = .next t ∧
    (∀ row col, (t.writeV 15 0).pixel row col = t.pixel row col) ∧ (∀ a, (t.writeV 15 0).readByte a = t.readByte a) ∧
    (t.writeV 15 0).i = t.i ∧ (t.writeV 15 0).readV 15 = (State.reset.setI 0x050).readV 15 ∧
    (State.reset.setI 0x050).pixel 0 0 = false ∧ t.pixel 0 0 = true :=
  ⟨_, rfl, fun _ _ => rfl, fun _ => rfl, rfl, by decide, by decide, by decide⟩
theorem witness_WaitForKeyStoresLowest : ({ State.reset with keypad := 0x0208 } : State).keyDown 3 = true ∧
    ∀ j : Key, j < 3 → ({ State.reset with keypad := 0x0208 } : State).keyDown j = false := by decide
theorem witness_WaitForKeyWaits : (∀ k, State.reset.keyDown k = false) ∧
    decodeWord ((State.reset.withFetchWord 16 0xF50A).wordAt 0x200) = .ldVxK 5 ∧
    (State.reset.withFetchWord 16 0xF50A).keySchedule.headD (State.reset.withFetchWord 16 0xF50A).keypad = 0 := by decide
/-- Glyph 0 drawn at column 63 of row 31: its bit at offset 1 of row 0 covers cell (31, 0), and its second row (0x90) does
not cover cell (0, 0). -/
theorem witness_DrawXorsSprite : SpriteCovers (State.reset.setI 0x050) 63 31 2 31 0 ∧
    ¬SpriteCovers (State.reset.setI 0x050) 63 31 2 0 0 := by
  refine ⟨⟨0, 1, by decide⟩, ?_⟩
  rintro ⟨r, c, hr, hc, hb, h1, h2⟩
  interval_cases r <;> interval_cases c <;> revert hb h1 h2 <;> decide

/-- A step from reset that answers a next state, for the statements about a whole cycle (TimersOverACycle, StatusOfACycle,
StatusValues, StickyBitRecordsStackFaults, StepKeepsInvariant, CycleIgnoresItsOutputs). -/
theorem witness_step : ∃ t, State.reset.Inv ∧ step (State.reset.withFetchWord 16 0xF215) = .next t ∧
    decodeWord ((State.reset.withFetchWord 16 0xF215).wordAt 0x200) = .ldDtVx 2 ∧ (State.reset.withFetchWord 16 0xF215).Inv :=
  ⟨_, by decide, rfl, by decide, by decide⟩
/-- An instruction that answers a next state, for the whole-machine rules (FlagWriters, IndexScreenMemoryWriters,
StackAndPcWriters, NeverWrittenByInstructions). -/
theorem witness_exec : ∃ t, exec (.addReg 15 1) State.reset = .next t ∧ (Instr.addReg 15 1).writesFlag = true ∧
    (Instr.ldImm 3 7).writesFlag = false ∧ (Instr.ldImm 3 7).xField ≠ some 15 := ⟨_, rfl, rfl, rfl, by decide⟩
theorem witness_IndexUpperBitsUnobservable : ∃ t, (0xF300 : Word).toNat % 4096 = (State.reset.setI 0x0300).i.toNat % 4096 ∧
    exec (.loadRegs 2) (State.reset.setI 0x0300) = .next t := ⟨_, by decide, rfl⟩

end Sys2Proof.Tests
end

section
/-! PROOFS. The memory access primitives and the fetch (spec/20_memory.md R32, R33, R34): the frame of each, then the two
obligations, whose values are the laws of Laws/Ops.lean and Laws/Cycle.lean. -/

namespace Sys2Proof.Machine

theorem onlyChanges_ir (s : State) (w : Word) : OnlyChanges [.ir] s { s with ir := w } := by
  intro p hp
  cases p
  case ir => simp at hp
  all_goals simp [Part.Same, State.readV, State.pixel, State.readByte]

/-- A noted access is no stack condition, so unlike `onlyChanges_raise` the frame holds the sticky bit (R143). -/
theorem onlyChanges_noteAccess (s : State) (ea : Nat) : OnlyChanges [.status] s (s.noteAccess ea) := by
  rw [State.noteAccess_eq]
  exact onlyChanges_status s _

/-- A byte write is a noted access, then one byte of memory (R33). -/
theorem onlyChanges_memWrite (s : State) (ea : Nat) (b : Byte) :
    OnlyChanges [.memory, .status] s (s.memWrite ea b) :=
  have note : OnlyChanges [.status] s (s.noteAccess ea) := onlyChanges_noteAccess s ea
  have put : OnlyChanges [.memory] (s.noteAccess ea) (s.memWrite ea b) := onlyChanges_memory _ _
  (note.mono (by simp)).trans (put.mono (by simp))

/-- The fetch is two noted accesses, then a write of `IR` (R34). -/
theorem onlyChanges_fetch (s : State) : OnlyChanges [.ir, .status] s s.fetch :=
  have noteHi := onlyChanges_noteAccess s s.pc.toNat
  have noteLo := onlyChanges_noteAccess (s.noteAccess s.pc.toNat) (s.pc.toNat + 1)
  have setIr := onlyChanges_ir ((s.noteAccess s.pc.toNat).noteAccess (s.pc.toNat + 1)) (s.wordAt s.pc.toNat)
  ((noteHi.trans noteLo).mono (by simp)).trans (setIr.mono (by simp))

/-- Settles O6: `IR` is the word of the two wrapped bytes, and the wrap of the higher address covers that of the lower. -/
theorem fetchIsBigEndian : Obligations.FetchIsBigEndian := by
  intro s
  refine ⟨?ir, ?status, onlyChanges_fetch s⟩
  case ir =>
    rw [State.fetch_eq]
    exact toNat_wordOfBytes (s.readByte s.pc.toNat) (s.readByte (s.pc.toNat + 1))
  case status => rw [State.fetch_eq]

/-- Settles O9: a read is the byte and a noted access, a write a noted access and one byte of memory. -/
theorem memoryAccessWrapsAndReports : Obligations.MemoryAccessWrapsAndReports := by
  intro s ea a b
  refine ⟨rfl, ?readStatus, onlyChanges_noteAccess s ea, s.readByte_memWrite ea a b, ?writeStatus,
    onlyChanges_memWrite s ea b⟩
  case readStatus => rw [State.memRead, State.noteAccess_eq]
  case writeStatus => rw [State.memWrite_eq]

end Sys2Proof.Machine
end

section
/-! PROOFS. The undefined encodings (spec/30_encoding.md R60): the words of the four no-op instructions, family by family;
the frame of a cycle's parts around its instruction (spec/40_cycle_and_dispatch.md R70); and the cycle of a no-op. -/

namespace Sys2Proof

/-! ## The no-op instructions and their words -/

/-- The four no-op instructions (spec/40_cycle_and_dispatch.md R73 to R76). -/
def Instr.isNoOp : Instr → Bool
  | .sys _ | .undef8 _ _ _ | .undefE _ _ | .undefF _ _ => true
  | _ => false

theorem Instr.isNoOp_iff (i : Instr) :
    i.isNoOp = true ↔ (∃ nnn, i = .sys nnn) ∨ (∃ x y n, i = .undef8 x y n) ∨ (∃ x kk, i = .undefE x kk) ∨
      ∃ x kk, i = .undefF x kk := by
  cases i <;> simp [Instr.isNoOp]

theorem isNoOp_decodeFamily0 (w : Word) :
    (decodeFamily0 w).isNoOp = !([0x0, 0xE].contains (w.toNat % 16)) := by
  unfold decodeFamily0
  rw [toNat_nOf]
  split <;> simp_all [Instr.isNoOp]

/-- Family 8 lists its undefined nibbles, its dispatch the defined ones: together they are all sixteen (R56, R60). -/
theorem isNoOp_decodeFamily8 (w : Word) :
    (decodeFamily8 w).isNoOp = [0x8, 0x9, 0xA, 0xB, 0xC, 0xD, 0xF].contains (w.toNat % 16) := by
  have nibble : w.toNat % 16 < 16 := Nat.mod_lt _ (by decide)
  unfold decodeFamily8
  rw [toNat_nOf]
  generalize w.toNat % 16 = n at nibble
  split
  case h_10 =>
    simp only [imp_false] at *
    rw [Instr.isNoOp, eq_comm, List.contains_iff_mem]
    simp only [List.mem_cons, List.not_mem_nil, or_false]
    omega
  all_goals rfl

theorem isNoOp_decodeFamilyE (w : Word) :
    (decodeFamilyE w).isNoOp = !([0x1, 0xE].contains (w.toNat % 16)) := by
  unfold decodeFamilyE
  rw [toNat_nOf]
  split <;> simp_all [Instr.isNoOp]

theorem isNoOp_decodeFamilyF (w : Word) :
    (decodeFamilyF w).isNoOp =
      !([0x07, 0x0A, 0x15, 0x18, 0x1E, 0x29, 0x33, 0x55, 0x65].contains (w.toNat % 256)) := by
  unfold decodeFamilyF
  rw [toNat_kkOf]
  split <;> simp_all [Instr.isNoOp]

/-- Only families 0, 8, E and F hold undefined words, each those of its own sub-dispatch (R54, R60). -/
theorem isNoOp_decodeWord (w : Word) : (decodeWord w).isNoOp = undefinedWord w := by
  have nibble : w.toNat / 4096 < 16 := by have := w.isLt; omega
  unfold decodeWord undefinedWord
  rw [toNat_opOf]
  generalize w.toNat / 4096 = op at nibble
  split
  case h_1 => simp [isNoOp_decodeFamily0]
  case h_9 => simp [isNoOp_decodeFamily8]
  case h_15 => simp [isNoOp_decodeFamilyE]
  case h_16 =>
    simp only [imp_false] at *
    obtain rfl : op = 15 := by omega
    simp [isNoOp_decodeFamilyF]
  all_goals rfl

end Sys2Proof

namespace Sys2Proof.Machine

/-! ## The frame of a cycle's parts (R70) -/

theorem onlyChanges_sampleKeys (s : State) : OnlyChanges [.keypad, .keySchedule] s s.sampleKeys := by
  intro p hp
  cases p
  case keypad | keySchedule => simp at hp
  all_goals simp [Part.Same]

theorem onlyChanges_beginCycle (s : State) : OnlyChanges [.run, .status] s s.beginCycle := by
  intro p hp
  cases p
  case run | status => simp at hp
  all_goals simp [Part.Same]

/-- Up to step 3 a cycle sets the keys, begins, fetches and advances (R72). -/
theorem onlyChanges_atDispatch (s : State) :
    OnlyChanges [.keypad, .keySchedule, .run, .status, .pc, .ir] s s.atDispatch :=
  have keys := onlyChanges_sampleKeys s
  have begun := onlyChanges_beginCycle s.sampleKeys
  have fetched := onlyChanges_fetch s.sampleKeys.beginCycle
  have advanced := onlyChanges_pc s.sampleKeys.beginCycle.fetch (s.sampleKeys.beginCycle.fetch.pc + 2)
  (((keys.mono (by simp)).trans (begun.mono (by simp))).trans (fetched.mono (by simp))).trans (advanced.mono (by simp))

theorem onlyChanges_tick (s : State) : OnlyChanges [.delay, .sound] s s.tick :=
  have delay := onlyChanges_delay s (tickTimer s.dt)
  have sound := onlyChanges_sound (s.setDt (tickTimer s.dt)) (tickTimer s.st)
  (delay.mono (by simp)).trans (sound.mono (by simp))

/-! ## The cycle of a no-op -/

/-- A no-op answers the state it starts in (R73 to R76). -/
theorem exec_of_isNoOp {i : Instr} (h : i.isNoOp = true) (s : State) : exec i s = .next s := by
  obtain ⟨_, rfl⟩ | ⟨_, _, _, rfl⟩ | ⟨_, _, rfl⟩ | ⟨_, _, rfl⟩ := i.isNoOp_iff.1 h <;> rfl

/-- A cycle that fetches an undefined word is its fetch and advance, then its tick (R60). -/
theorem step_of_undefinedWord {s : State} (h : undefinedWord (s.wordAt s.pc.toNat) = true) :
    step s = .next s.atDispatch.tick := by
  rw [← isNoOp_decodeWord] at h
  rw [step_eq, exec_of_isNoOp h]
  rfl

/-- Settles O8: the words by the families' sub-dispatches, the cycle by its parts around an instruction that does nothing. -/
theorem undefinedOpcodesAreNoOps : Obligations.UndefinedOpcodesAreNoOps := by
  refine ⟨?words, ?cycle, fun s nnn x y n kk => ⟨rfl, rfl, rfl, rfl⟩⟩
  case words =>
    intro w
    rw [← isNoOp_decodeWord, Instr.isNoOp_iff]
  case cycle =>
    intro s h
    have frame : OnlyChanges [.keypad, .keySchedule, .run, .status, .pc, .ir, .delay, .sound] s s.atDispatch.tick :=
      ((onlyChanges_atDispatch s).mono (by simp)).trans ((onlyChanges_tick s.atDispatch).mono (by simp))
    refine ⟨s.atDispatch.tick, step_of_undefinedWord h, ?pc, ?dt, ?st, ?ir, ?status, frame⟩
    all_goals rw [State.tick_eq, State.atDispatch_eq]
    case pc => exact BitVec.toNat_add s.pc 2
    case dt => exact toNat_tickTimer s.dt
    case st => exact toNat_tickTimer s.st
    case status => simp only [Nat.reduceLeDiff]

end Sys2Proof.Machine
end

section
/-! PROOFS. The jumps (spec/41_control_flow.md R81, R87): their words decode, their targets are numbers that 16 bits hold. -/

namespace Sys2Proof

theorem decodeWord_wordNNN_jp (nnn : Addr) : decodeWord (wordNNN 0x1 nnn) = .jp nnn := by
  rw [decodeWord, opOf_wordNNN, nnnOf_wordNNN]; rfl

theorem decodeWord_wordNNN_jpV0 (nnn : Addr) : decodeWord (wordNNN 0xB nnn) = .jpV0 nnn := by
  rw [decodeWord, opOf_wordNNN, nnnOf_wordNNN]; rfl

end Sys2Proof

namespace Sys2Proof.Machine

@[simp] theorem toNat_zextAddr (nnn : Addr) : (zextAddr nnn).toNat = nnn.toNat :=
  BitVec.toNat_setWidth_of_le (by decide)

@[simp] theorem toNat_zextByte (b : Byte) : (zextByte b).toNat = b.toNat :=
  BitVec.toNat_setWidth_of_le (by decide)

/-- An address plus a byte is at most 0x10FE, so the 16-bit sum is not truncated (R87). -/
theorem toNat_zextAddr_add_zextByte (nnn : Addr) (b : Byte) :
    (zextAddr nnn + zextByte b).toNat = nnn.toNat + b.toNat := by
  have addr : nnn.toNat < 4096 := nnn.isLt
  have byte : b.toNat < 256 := b.isLt
  rw [BitVec.toNat_add, toNat_zextAddr, toNat_zextByte]
  exact Nat.mod_eq_of_lt (by omega)

/-- A jump answers with `pc` written, so it keeps every other part (R81). -/
theorem exec_jp (nnn : Addr) (s : State) : exec (.jp nnn) s = .next (s.setPc (zextAddr nnn)) := rfl

/-- `V0` is read, not written (R87). -/
theorem exec_jpV0 (nnn : Addr) (s : State) :
    exec (.jpV0 nnn) s = .next (s.setPc (zextAddr nnn + zextByte (s.readV 0))) := rfl

/-- Settles O16: each jump is one write of `pc`, of a target that 16 bits hold. -/
theorem jumpsSetPc : Obligations.JumpsSetPc := fun s nnn =>
  ⟨decodeWord_wordNNN_jp nnn, decodeWord_wordNNN_jpV0 nnn,
    ⟨_, exec_jp nnn s, toNat_zextAddr nnn, onlyChanges_pc s _⟩,
    ⟨_, exec_jpV0 nnn s, toNat_zextAddr_add_zextByte nnn (s.readV 0), onlyChanges_pc s _⟩⟩

end Sys2Proof.Machine
end

section
/-! PROOFS. The register load (spec/42_load_and_alu.md R90): its words decode, and it is one register write. -/

namespace Sys2Proof

theorem decodeWord_wordXKK_ldImm (x : Reg) (kk : Byte) : decodeWord (wordXKK 0x6 (regBits x) kk) = .ldImm x kk := by
  rw [decodeWord, opOf_wordXKK, xOf_wordXKK, kkOf_wordXKK, toFin_regBits]; rfl

end Sys2Proof

namespace Sys2Proof.Machine

/-- A register write keeps every part but the registers; `regsSameExcept_writeV` says which registers it keeps. -/
theorem onlyChanges_writeV (s : State) (x : Reg) (b : Byte) : OnlyChanges [.regs] s (s.writeV x b) :=
  onlyChanges_regs s (s.v.set x b)

/-- The register a write names holds the byte written, VF no exception. -/
theorem State.readV_writeV_same (s : State) (x : Reg) (b : Byte) : (s.writeV x b).readV x = b := by
  rw [State.readV_writeV, if_pos rfl]

/-- The byte is written as it stands in the word (R90). -/
theorem exec_ldImm (x : Reg) (kk : Byte) (s : State) : exec (.ldImm x kk) s = .next (s.writeV x kk) := rfl

/-- Settles O24: the load is one register write of the word's low byte. -/
theorem loadImmediate : Obligations.LoadImmediate := fun s x kk =>
  ⟨decodeWord_wordXKK_ldImm x kk, _, exec_ldImm x kk s, s.readV_writeV_same x kk, regsSameExcept_writeV s x kk,
    onlyChanges_writeV s x kk⟩

end Sys2Proof.Machine
end

section
/-! PROOFS. The index register (spec/43_index_and_memory.md R110, R111): the words of its load and its addition decode,
and each is one write of `I`. -/

namespace Sys2Proof

theorem decodeWord_wordNNN_ldI (nnn : Addr) : decodeWord (wordNNN 0xA nnn) = .ldI nnn := by
  rw [decodeWord, opOf_wordNNN, nnnOf_wordNNN]; rfl

/-- A word of family F is left to the sub-dispatch on its low byte (R54). -/
theorem decodeWord_wordXKK_familyF (x : Nibble) (kk : Byte) :
    decodeWord (wordXKK 0xF x kk) = decodeFamilyF (wordXKK 0xF x kk) := by
  rw [decodeWord, opOf_wordXKK]; rfl

theorem decodeWord_wordXKK_addI (x : Reg) : decodeWord (wordXKK 0xF (regBits x) 0x1E) = .addI x := by
  rw [decodeWord_wordXKK_familyF, decodeFamilyF, kkOf_wordXKK, xOf_wordXKK, toFin_regBits]; rfl

end Sys2Proof

namespace Sys2Proof.Machine

/-- The 16-bit sum of a word and a byte is their sum modulo 2^16 (R111). -/
theorem toNat_add_zextByte (w : Word) (b : Byte) : (w + zextByte b).toNat = (w.toNat + b.toNat) % 65536 := by
  rw [BitVec.toNat_add, toNat_zextByte]

/-- The load answers with `I` written, so it keeps every other part (R110). -/
theorem exec_ldI (nnn : Addr) (s : State) : exec (.ldI nnn) s = .next (s.setI (zextAddr nnn)) := rfl

/-- The addition reads `Vx` and writes `I` alone: no flag (R111). -/
theorem exec_addI (x : Reg) (s : State) : exec (.addI x) s = .next (s.setI (s.i + zextByte (s.readV x))) := rfl

/-- Settles O31: each is one write of `I`, of the address zero-extended or of the 16-bit sum. -/
theorem indexLoadAndAdd : Obligations.IndexLoadAndAdd := fun s nnn x =>
  ⟨decodeWord_wordNNN_ldI nnn, decodeWord_wordXKK_addI x,
    ⟨_, exec_ldI nnn s, toNat_zextAddr nnn, onlyChanges_index s _⟩,
    ⟨_, exec_addI x s, toNat_add_zextByte s.i (s.readV x), onlyChanges_index s _⟩⟩

end Sys2Proof.Machine
end

section
/-! PROOFS. The decimal digits (spec/43_index_and_memory.md R113): what a block store from `I` on holds, reports and
leaves alone, then the store of the three digits. -/

namespace Sys2Proof

theorem decodeWord_wordXKK_ldB (x : Reg) : decodeWord (wordXKK 0xF (regBits x) 0x33) = .ldB x := by
  rw [decodeWord_wordXKK_familyF, decodeFamilyF, kkOf_wordXKK, xOf_wordXKK, toFin_regBits]; rfl

end Sys2Proof

namespace Sys2Proof.Machine

/-! ## Block stores -/

/-- A block store is byte writes one after another (R116). -/
theorem onlyChanges_storeBytes (s : State) (ea : Nat) (bs : List Byte) :
    OnlyChanges [.memory, .status] s (s.storeBytes ea bs) := by
  induction bs generalizing s ea with
  | nil => exact OnlyChanges.refl _ s
  | cons b bs ih => exact (onlyChanges_memWrite s ea b).trans (ih (s.memWrite ea b) (ea + 1))

/-- The k-th byte of a block stored from `I` on is at the effective address `I + k` (R116). -/
theorem State.readByte_storeBytes_effAddr (s : State) (bs : List Byte) (hl : bs.length ≤ 4096) (k : Nat)
    (hk : k < bs.length) : (s.storeBytes (s.effAddr 0) bs).readByte (s.effAddr k) = bs[k] :=
  s.readByte_storeBytes (s.effAddr 0) bs hl k hk

/-- The frame of `State.readByte_storeBytes_of_outside`, in the word the statements use. -/
theorem State.readByte_storeBytes_of_not_storedAt (s : State) {ea a : Nat} {bs : List Byte}
    (h : ¬StoredAt ea bs.length a) : (s.storeBytes ea bs).readByte a = s.readByte a :=
  s.readByte_storeBytes_of_outside ea a bs fun k hk ha => h ⟨k, hk, ha⟩

/-- A store of `n + 1` bytes from `I` on reports a wrap exactly when `I + n` is 4096 or more (R143). -/
theorem State.storeBytes_effAddr_status (s : State) {bs : List Byte} {n : Nat} (h : bs.length = n + 1) :
    (s.storeBytes (s.effAddr 0) bs).status =
      ⟨s.status.sovf, s.status.sunf, s.status.aw || decide (4096 ≤ s.i.toNat + n)⟩ := by
  have last : (0 < n + 1 ∧ 4096 < s.i.toNat + 0 + (n + 1)) ↔ 4096 ≤ s.i.toNat + n := by omega
  rw [storeBytes_status, h, State.effAddr, ← Bool.decide_and, decide_eq_decide.2 last]

/-! ## The digits -/

@[simp] theorem length_bcdDigits (b : Byte) : (bcdDigits b).length = 3 := rfl

/-- A number up to a byte's, as each of its digits is, loses nothing as a byte. -/
theorem toNat_ofNat_of_le_byte {n : Nat} {b : Byte} (h : n ≤ b.toNat) : (BitVec.ofNat 8 n).toNat = n :=
  (BitVec.toNat_ofNat n 8).trans (Nat.mod_eq_of_lt (h.trans_lt b.isLt))

/-- Three bytes are stored from `I` on, and `I` is not written (R113). -/
theorem exec_ldB (x : Reg) (s : State) :
    exec (.ldB x) s = .next (s.storeBytes (s.effAddr 0) (bcdDigits (s.readV x))) := rfl

/-- Settles O33: the instruction is a block store of three bytes from `I` on, each a decimal digit that a byte holds. -/
theorem bcdStoresDigits : Obligations.BcdStoresDigits := by
  intro s x
  refine ⟨decodeWord_wordXKK_ldB x, _, exec_ldB x s, ?hundreds, ?tens, ?ones,
    fun a ha => s.readByte_storeBytes_of_not_storedAt ha, s.storeBytes_effAddr_status (length_bcdDigits _),
    onlyChanges_storeBytes s _ _⟩
  case hundreds =>
    rw [s.readByte_storeBytes_effAddr _ (by simp) 0 (by simp)]
    exact toNat_ofNat_of_le_byte (Nat.div_le_self _ _)
  case tens =>
    rw [s.readByte_storeBytes_effAddr _ (by simp) 1 (by simp)]
    exact toNat_ofNat_of_le_byte ((Nat.mod_le _ _).trans (Nat.div_le_self _ _))
  case ones =>
    rw [s.readByte_storeBytes_effAddr _ (by simp) 2 (by simp)]
    exact toNat_ofNat_of_le_byte (Nat.mod_le _ _)

end Sys2Proof.Machine
end

section
/-! PROOFS. Decoding what the encoder writes, and encoding what the decoder reads (spec/30_encoding.md R50 to R61), family
by family. -/

namespace Sys2Proof

/-! ## The families with a sub-dispatch (R55 to R58) -/

theorem decodeWord_of_opOf_0 {w : Word} (h : opOf w = 0x0) : decodeWord w = decodeFamily0 w := by
  rw [decodeWord, h]; rfl

theorem decodeWord_of_opOf_8 {w : Word} (h : opOf w = 0x8) : decodeWord w = decodeFamily8 w := by
  rw [decodeWord, h]; rfl

theorem decodeWord_of_opOf_E {w : Word} (h : opOf w = 0xE) : decodeWord w = decodeFamilyE w := by
  rw [decodeWord, h]; rfl

theorem decodeWord_of_opOf_F {w : Word} (h : opOf w = 0xF) : decodeWord w = decodeFamilyF w := by
  rw [decodeWord, h]; rfl

/-! ## Well-formed no-ops keep off the words of their family's defined instructions (R60) -/

theorem wf_sys_iff (nnn : Addr) : (Instr.sys nnn).wf = true ↔ nnn.toNat % 16 ≠ 0x0 ∧ nnn.toNat % 16 ≠ 0xE := by
  simp [Instr.wf, ← BitVec.toNat_inj]

theorem wf_undefE_iff (x : Reg) (kk : Byte) :
    (Instr.undefE x kk).wf = true ↔ kk.toNat % 16 ≠ 0xE ∧ kk.toNat % 16 ≠ 0x1 := by
  simp [Instr.wf, ← BitVec.toNat_inj]

theorem wf_undef8_iff (x y : Reg) (n : Nibble) :
    (Instr.undef8 x y n).wf = true ↔ n.toNat ∉ [0x0, 0x1, 0x2, 0x3, 0x4, 0x5, 0x6, 0x7, 0xE] := by
  simp [Instr.wf, family8Defined, ← BitVec.toNat_inj]

theorem wf_undefF_iff (x : Reg) (kk : Byte) :
    (Instr.undefF x kk).wf = true ↔ kk.toNat ∉ [0x07, 0x0A, 0x15, 0x18, 0x1E, 0x29, 0x33, 0x55, 0x65] := by
  simp [Instr.wf, familyFDefined, ← BitVec.toNat_inj]

/-! ## Decode of encode -/

theorem decodeWord_encode_sys {nnn : Addr} (h : (Instr.sys nnn).wf = true) :
    decodeWord (encode (.sys nnn)) = .sys nnn := by
  rw [wf_sys_iff] at h
  rw [encode, decodeWord_of_opOf_0 (opOf_wordNNN _ _), decodeFamily0, toNat_nOf_wordNNN, nnnOf_wordNNN]
  split <;> simp_all

theorem decodeWord_encode_undef8 {x y : Reg} {n : Nibble} (h : (Instr.undef8 x y n).wf = true) :
    decodeWord (encode (.undef8 x y n)) = .undef8 x y n := by
  rw [wf_undef8_iff] at h
  rw [encode, decodeWord_of_opOf_8 (opOf_wordXYN _ _ _ _), decodeFamily8, xOf_wordXYN, yOf_wordXYN, nOf_wordXYN]
  split <;> simp_all

theorem decodeWord_encode_undefE {x : Reg} {kk : Byte} (h : (Instr.undefE x kk).wf = true) :
    decodeWord (encode (.undefE x kk)) = .undefE x kk := by
  rw [wf_undefE_iff] at h
  rw [encode, decodeWord_of_opOf_E (opOf_wordXKK _ _ _), decodeFamilyE, toNat_nOf_wordXKK, xOf_wordXKK, kkOf_wordXKK]
  split <;> simp_all

theorem decodeWord_encode_undefF {x : Reg} {kk : Byte} (h : (Instr.undefF x kk).wf = true) :
    decodeWord (encode (.undefF x kk)) = .undefF x kk := by
  rw [wf_undefF_iff] at h
  rw [encode, decodeWord_wordXKK_familyF, decodeFamilyF, xOf_wordXKK, kkOf_wordXKK]
  split <;> simp_all

/-- The encoder loses nothing: a defined instruction's fields come back by the fields of a built word, and a no-op's word is
none of its family's defined words because the no-op is well-formed. -/
theorem decodeWord_encode {i : Instr} (h : i.wf = true) : decodeWord (encode i) = i := by
  cases i
  case cls | ret => decide
  case sys nnn => exact decodeWord_encode_sys h
  case undef8 x y n => exact decodeWord_encode_undef8 h
  case undefE x kk => exact decodeWord_encode_undefE h
  case undefF x kk => exact decodeWord_encode_undefF h
  case skp x | sknp x => simp [encode, decodeWord, decodeFamilyE, toNat_nOf_wordXKK]
  all_goals simp [encode, decodeWord, decodeFamily8, decodeFamilyF]

theorem decodeBytes_encodeBytes_append {i : Instr} (h : i.wf = true) (rest : List Byte) :
    decodeBytes (encodeBytes i ++ rest) = .ok (i, rest) := by
  simp [encodeBytes, decodeBytes, decodeWord_encode h]

/-- Settles O2, constructor by constructor. -/
theorem decodeOfEncode : Obligations.DecodeOfEncode := fun _ rest h =>
  ⟨decodeWord_encode h, decodeBytes_encodeBytes_append h rest⟩

/-- Settles O1: closed words, so the decoder is run on each. -/
theorem sampleWordsDecode : Obligations.SampleWordsDecode := by
  unfold Obligations.SampleWordsDecode
  decide

end Sys2Proof
end

section
/-! PROOFS. Encoding what the decoder reads (spec/30_encoding.md R59): the canonical word of a decoded word, family by
family. -/

namespace Sys2Proof

/-- `i` is well-formed and its canonical word is `w` but for the ignored bits of `w`: what the decoder owes the word. -/
def CanonicallyReads (w : Word) (i : Instr) : Prop :=
  i.wf = true ∧ encode i &&& ~~~ignoredBits w = w &&& ~~~ignoredBits w

theorem canonicallyReads_of_encode_eq {w : Word} {i : Instr} (hwf : i.wf = true) (h : encode i = w) :
    CanonicallyReads w i :=
  ⟨hwf, by rw [h]⟩

/-! ## A word from the fields its decoder examined -/

/-- The decoder compares numbers; a field with the number of a literal is the literal. -/
theorem eq_ofNat_of_toNat_eq {n k : Nat} {b : BitVec n} (h : b.toNat = k) : b = BitVec.ofNat n k := by
  rw [← h, BitVec.ofNat_toNat, BitVec.setWidth_eq]

theorem wordNNN_of_fields {w : Word} {op : Nibble} (hop : opOf w = op) : wordNNN op (nnnOf w) = w := by
  rw [← hop, wordNNN_fields]

theorem wordXKK_of_fields {w : Word} {op : Nibble} {kk : Byte} (hop : opOf w = op) (hkk : kkOf w = kk) :
    wordXKK op (regBits (xOf w)) kk = w := by
  rw [← hop, ← hkk, xOf, regBits_toFin, wordXKK_fields]

theorem wordXYN_of_fields {w : Word} {op n : Nibble} (hop : opOf w = op) (hn : nOf w = n) :
    wordXYN op (regBits (xOf w)) (regBits (yOf w)) n = w := by
  rw [← hop, ← hn, xOf, yOf, regBits_toFin, regBits_toFin, wordXYN_fields]

/-- A byte in format XKK is two nibbles in format XYN. -/
theorem wordXKK_append (op x c d : Nibble) : wordXKK op x (c ++ d) = wordXYN op x c d := by
  apply BitVec.eq_of_toNat_eq
  rw [toNat_wordXKK, toNat_wordXYN, toNat_append_add]
  omega

/-! ## Words that differ in ignored nibbles only agree on the others -/

theorem wordXYN_and_not_0FF0 (op b c b' c' n : Nibble) :
    wordXYN op b c n &&& ~~~0x0FF0 = wordXYN op b' c' n &&& ~~~0x0FF0 := by
  rw [show ~~~(0x0FF0 : Word) = wordXYN 15 0#4 0#4 15 by decide]
  simp only [wordXYN_and, BitVec.and_zero]

theorem wordXYN_and_not_000F (op x y n n' : Nibble) :
    wordXYN op x y n &&& ~~~0x000F = wordXYN op x y n' &&& ~~~0x000F := by
  rw [show ~~~(0x000F : Word) = wordXYN 15 15 15 0#4 by decide]
  simp only [wordXYN_and, BitVec.and_zero]

theorem wordXYN_and_not_00F0 (op x c c' n : Nibble) :
    wordXYN op x c n &&& ~~~0x00F0 = wordXYN op x c' n &&& ~~~0x00F0 := by
  rw [show ~~~(0x00F0 : Word) = wordXYN 15 15 0#4 15 by decide]
  simp only [wordXYN_and, BitVec.and_zero]

/-- Bits 11 to 4 are ignored: `00E0` and `00EE` (R55). -/
theorem canonicallyReads_of_family0 {w : Word} {i : Instr} {n : Nibble} (hop : opOf w = 0x0) (hn : nOf w = n)
    (hign : ignoredBits w = 0x0FF0) (hwf : i.wf = true) (henc : encode i = wordXYN 0x0 0x0 0xE n) :
    CanonicallyReads w i := by
  refine ⟨hwf, ?_⟩
  rw [hign, henc, ← wordXYN_fields w, hop, hn]
  exact wordXYN_and_not_0FF0 _ _ _ _ _ _

/-- Bits 3 to 0 are ignored: `5xy0` and `9xy0` (R54). -/
theorem canonicallyReads_of_skip {w : Word} {i : Instr} {op : Nibble} (hop : opOf w = op)
    (hign : ignoredBits w = 0x000F) (hwf : i.wf = true)
    (henc : encode i = wordXYN op (regBits (xOf w)) (regBits (yOf w)) 0x0) : CanonicallyReads w i := by
  refine ⟨hwf, ?_⟩
  rw [hign, henc]
  conv_rhs => rw [← wordXYN_of_fields hop rfl]
  exact wordXYN_and_not_000F _ _ _ _ _

/-- Bits 7 to 4 are ignored: `Ex9E` and `ExA1` (R57). -/
theorem canonicallyReads_of_familyE {w : Word} {i : Instr} {c n : Nibble} (hop : opOf w = 0xE) (hn : nOf w = n)
    (hign : ignoredBits w = 0x00F0) (hwf : i.wf = true) (henc : encode i = wordXKK 0xE (regBits (xOf w)) (c ++ n)) :
    CanonicallyReads w i := by
  refine ⟨hwf, ?_⟩
  rw [hign, henc, wordXKK_append]
  conv_rhs => rw [← wordXYN_of_fields hop hn]
  exact wordXYN_and_not_00F0 _ _ _ _ _

/-! ## The families -/

theorem decodeFamily0_canonicallyReads {w : Word} (hop : opOf w = 0x0) : CanonicallyReads w (decodeFamily0 w) := by
  unfold decodeFamily0
  split
  case h_1 hn | h_2 hn =>
    have hn := eq_ofNat_of_toNat_eq hn
    exact canonicallyReads_of_family0 hop hn (by rw [ignoredBits, hop, hn]; rfl) rfl (by decide)
  case h_3 h0 hE =>
    refine canonicallyReads_of_encode_eq ((wf_sys_iff _).2 ?_) (wordNNN_of_fields hop)
    rw [toNat_nnnOf]
    rw [imp_false, toNat_nOf] at h0 hE
    omega

theorem decodeFamily8_canonicallyReads {w : Word} (hop : opOf w = 0x8) : CanonicallyReads w (decodeFamily8 w) := by
  unfold decodeFamily8
  split
  case h_10 =>
    exact canonicallyReads_of_encode_eq ((wf_undef8_iff _ _ _).2 (by simp_all)) (wordXYN_of_fields hop rfl)
  all_goals exact canonicallyReads_of_encode_eq rfl (wordXYN_of_fields hop (eq_ofNat_of_toNat_eq ‹_›))

theorem decodeFamilyE_canonicallyReads {w : Word} (hop : opOf w = 0xE) : CanonicallyReads w (decodeFamilyE w) := by
  unfold decodeFamilyE
  split
  case h_1 hn =>
    have hn := eq_ofNat_of_toNat_eq hn
    exact canonicallyReads_of_familyE (c := 0x9) hop hn (by rw [ignoredBits, hop, hn]; rfl) rfl rfl
  case h_2 hn =>
    have hn := eq_ofNat_of_toNat_eq hn
    exact canonicallyReads_of_familyE (c := 0xA) hop hn (by rw [ignoredBits, hop, hn]; rfl) rfl rfl
  case h_3 hE h1 =>
    refine canonicallyReads_of_encode_eq ((wf_undefE_iff _ _).2 ?_) (wordXKK_of_fields hop rfl)
    rw [toNat_kkOf]
    rw [imp_false, toNat_nOf] at hE h1
    omega

theorem decodeFamilyF_canonicallyReads {w : Word} (hop : opOf w = 0xF) : CanonicallyReads w (decodeFamilyF w) := by
  unfold decodeFamilyF
  split
  case h_10 =>
    exact canonicallyReads_of_encode_eq ((wf_undefF_iff _ _).2 (by simp_all)) (wordXKK_of_fields hop rfl)
  all_goals exact canonicallyReads_of_encode_eq rfl (wordXKK_of_fields hop (eq_ofNat_of_toNat_eq ‹_›))

/-- The last arm of the primary dispatch is family F (R54). -/
theorem opOf_eq_F {w : Word} (h : ∀ k, k < 15 → (opOf w).toNat ≠ k) : opOf w = 0xF := by
  refine eq_ofNat_of_toNat_eq (k := 15) ?_
  have := (opOf w).isLt
  by_contra hne
  exact h _ (by omega) rfl

theorem decodeWord_canonicallyReads (w : Word) : CanonicallyReads w (decodeWord w) := by
  unfold decodeWord
  split
  case h_1 => exact decodeFamily0_canonicallyReads (eq_ofNat_of_toNat_eq ‹_›)
  case h_6 | h_10 =>
    have hop := eq_ofNat_of_toNat_eq ‹(opOf w).toNat = _›
    exact canonicallyReads_of_skip hop (by rw [ignoredBits, hop]; rfl) rfl rfl
  case h_9 => exact decodeFamily8_canonicallyReads (eq_ofNat_of_toNat_eq ‹_›)
  case h_15 => exact decodeFamilyE_canonicallyReads (eq_ofNat_of_toNat_eq ‹_›)
  case h_16 => exact decodeFamilyF_canonicallyReads (opOf_eq_F (by intro k hk; interval_cases k <;> assumption))
  case h_2 | h_3 | h_11 | h_12 =>
    exact canonicallyReads_of_encode_eq rfl (wordNNN_of_fields (eq_ofNat_of_toNat_eq ‹_›))
  case h_4 | h_5 | h_7 | h_8 | h_13 =>
    exact canonicallyReads_of_encode_eq rfl (wordXKK_of_fields (eq_ofNat_of_toNat_eq ‹_›) rfl)
  case h_14 => exact canonicallyReads_of_encode_eq rfl (wordXYN_of_fields (eq_ofNat_of_toNat_eq ‹_›) rfl)

/-- Settles O3, family by family. -/
theorem encodeOfDecode : Obligations.EncodeOfDecode := decodeWord_canonicallyReads

end Sys2Proof
end

section
/-! PROOFS. The opcode table read in priority order (spec/30_encoding.md R65) against the nested dispatch, one group of rows
at a time. -/

namespace Sys2Proof

/-- The first of some rows that selects a word, and what it reads: `decodeByTable` on a part of the table. -/
def lookup (rows : List TableRow) (w : Word) : Option Instr :=
  (rows.find? fun r => w &&& r.mask == r.pattern).map fun r => r.build w

theorem decodeByTable_eq_lookup (w : Word) : decodeByTable w = lookup opcodeTable w := rfl

theorem lookup_append (rows rows' : List TableRow) (w : Word) :
    lookup (rows ++ rows') w = (lookup rows w).or (lookup rows' w) := by
  simp [lookup, List.find?_append, Option.map_or]

theorem lookup_nil (w : Word) : lookup [] w = none := rfl

theorem lookup_cons (r : TableRow) (rows : List TableRow) (w : Word) :
    lookup (r :: rows) w = if w &&& r.mask = r.pattern then some (r.build w) else lookup rows w := by
  unfold lookup
  rw [List.find?_cons]
  split <;> simp_all

/-! ## What a row's mask examines, as numbers (literals in simp normal form) -/

theorem and_F000_eq_iff {w p : Word} (hp : p.toNat % 4096 = 0) :
    w &&& 0xF000#16 = p ↔ (opOf w).toNat = p.toNat / 4096 := by
  have fields : wordXYN (opOf p) 0 0 0 = p := by
    apply BitVec.eq_of_toNat_eq
    rw [toNat_wordXYN, toNat_opOf]
    show 4096 * (p.toNat / 4096) + 256 * 0 + 16 * 0 + 0 = p.toNat
    omega
  have key : (w &&& 0xF000#16 == _) = _ := mask_F000 w (opOf p)
  rw [fields] at key
  rw [← beq_iff_eq, key, beq_iff_eq, ← BitVec.toNat_inj, toNat_opOf p]

theorem and_F00F_eq_iff {w p : Word} (hp : p.toNat / 16 % 256 = 0) :
    w &&& 0xF00F#16 = p ↔ (opOf w).toNat = p.toNat / 4096 ∧ (nOf w).toNat = p.toNat % 16 := by
  have fields : wordXYN (opOf p) 0 0 (nOf p) = p := by
    apply BitVec.eq_of_toNat_eq
    rw [toNat_wordXYN, toNat_opOf, toNat_nOf]
    show 4096 * (p.toNat / 4096) + 256 * 0 + 16 * 0 + p.toNat % 16 = p.toNat
    omega
  have key : (w &&& 0xF00F#16 == _) = _ := mask_F00F w (opOf p) (nOf p)
  rw [fields] at key
  rw [← beq_iff_eq, key, Bool.and_eq_true, beq_iff_eq, beq_iff_eq, ← BitVec.toNat_inj, ← BitVec.toNat_inj,
    toNat_opOf p, toNat_nOf p]

theorem and_F0FF_eq_iff {w p : Word} (hp : p.toNat / 256 % 16 = 0) :
    w &&& 0xF0FF#16 = p ↔ (opOf w).toNat = p.toNat / 4096 ∧ (kkOf w).toNat = p.toNat % 256 := by
  have fields : wordXYN (opOf p) 0 (yBits p) (nOf p) = p := by
    apply BitVec.eq_of_toNat_eq
    rw [toNat_wordXYN, toNat_opOf, toNat_yBits, toNat_nOf]
    show 4096 * (p.toNat / 4096) + 256 * 0 + 16 * (p.toNat / 16 % 16) + p.toNat % 16 = p.toNat
    omega
  have lowByte : (kkOf w).toNat = p.toNat % 256 ↔
      (yBits w).toNat = (yBits p).toNat ∧ (nOf w).toNat = (nOf p).toNat := by
    rw [toNat_kkOf, toNat_yBits, toNat_yBits, toNat_nOf, toNat_nOf]
    omega
  have key : (w &&& 0xF0FF#16 == _) = _ := mask_F0FF w (opOf p) (yBits p) (nOf p)
  rw [fields] at key
  rw [lowByte, ← beq_iff_eq, key, Bool.and_eq_true, Bool.and_eq_true, beq_iff_eq, beq_iff_eq, beq_iff_eq,
    ← BitVec.toNat_inj, ← BitVec.toNat_inj, ← BitVec.toNat_inj, toNat_opOf p]

/-! ## The groups of rows: each answers for its own families, and for no other word -/

theorem lookup_tableLow (w : Word) :
    lookup tableLow w = if (opOf w).toNat ≤ 7 then some (decodeWord w) else none := by
  simp only [tableLow, lookup_cons, lookup_nil, and_F00F_eq_iff, and_F000_eq_iff,
    BitVec.ofNat_eq_ofNat, BitVec.reduceToNat, Nat.reduceDiv, Nat.reduceMod, decodeWord, decodeFamily0]
  generalize (opOf w).toNat = op, (nOf w).toNat = n
  by_cases hop : op ≤ 7
  · rw [if_pos hop]
    obtain rfl | hpos := Nat.eq_zero_or_pos op
    · simp only [true_and, reduceIte, Nat.reduceEqDiff]
      symm
      split
      case h_3 hn hn' => rw [if_neg hn, if_neg hn']
      all_goals rfl
    · interval_cases op <;> rfl
  · have other : ∀ k, k ≤ 7 → op ≠ k := by omega
    simp only [hop, other, Nat.reduceLeDiff, false_and, if_false]

theorem lookup_tableFamily8 (w : Word) :
    lookup tableFamily8 w = if (opOf w).toNat = 8 then some (decodeWord w) else none := by
  simp only [tableFamily8, lookup_cons, lookup_nil, and_F00F_eq_iff, and_F000_eq_iff,
    BitVec.ofNat_eq_ofNat, BitVec.reduceToNat, Nat.reduceDiv, Nat.reduceMod]
  by_cases hop : (opOf w).toNat = 8
  · rw [decodeWord_of_opOf_8 (eq_ofNat_of_toNat_eq hop), decodeFamily8]
    simp only [hop, true_and, if_true]
    generalize (nOf w).toNat = n
    symm
    split
    case h_10 =>
      simp only [imp_false] at *
      simp only [*, if_false]
    all_goals rfl
  · simp only [hop, false_and, if_false]

theorem lookup_tableMiddle (w : Word) :
    lookup tableMiddle w = if 9 ≤ (opOf w).toNat ∧ (opOf w).toNat ≤ 14 then some (decodeWord w) else none := by
  simp only [tableMiddle, lookup_cons, lookup_nil, and_F00F_eq_iff, and_F000_eq_iff,
    BitVec.ofNat_eq_ofNat, BitVec.reduceToNat, Nat.reduceDiv, Nat.reduceMod, decodeWord, decodeFamilyE]
  generalize (opOf w).toNat = op, (nOf w).toNat = n
  by_cases hop : 9 ≤ op ∧ op ≤ 14
  · rw [if_pos hop]
    obtain ⟨hlo, hhi⟩ := hop
    obtain hlt | rfl := Nat.lt_or_eq_of_le hhi
    · interval_cases op <;> rfl
    · simp only [true_and, reduceIte, Nat.reduceEqDiff]
      symm
      split
      case h_3 hn hn' => rw [if_neg hn, if_neg hn']
      all_goals rfl
  · have other : ∀ k, 9 ≤ k → k ≤ 14 → op ≠ k := by omega
    simp only [hop, other, Nat.reduceLeDiff, false_and, if_false]

theorem lookup_tableFamilyF (w : Word) :
    lookup tableFamilyF w = if (opOf w).toNat = 15 then some (decodeWord w) else none := by
  simp only [tableFamilyF, lookup_cons, lookup_nil, and_F0FF_eq_iff, and_F000_eq_iff,
    BitVec.ofNat_eq_ofNat, BitVec.reduceToNat, Nat.reduceDiv, Nat.reduceMod]
  by_cases hop : (opOf w).toNat = 15
  · rw [decodeWord_of_opOf_F (eq_ofNat_of_toNat_eq hop), decodeFamilyF]
    simp only [hop, true_and, if_true]
    generalize (kkOf w).toNat = kk
    symm
    split
    case h_10 =>
      simp only [imp_false] at *
      simp only [*, if_false]
    all_goals rfl
  · simp only [hop, false_and, if_false]

/-- Settles O4: the table is its four groups of rows, and a nibble names one of them. -/
theorem tableReproducesDispatch : Obligations.TableReproducesDispatch := by
  intro w
  have nibble : (opOf w).toNat < 16 := (opOf w).isLt
  rw [decodeByTable_eq_lookup, opcodeTable, lookup_append, lookup_append, lookup_append, lookup_tableLow,
    lookup_tableFamily8, lookup_tableMiddle, lookup_tableFamilyF]
  split_ifs <;> simp
  omega

end Sys2Proof
end

section
/-! PROOFS. Whole cycles (spec/40_cycle_and_dispatch.md R70, R71): that a cycle answers, and what its dispatch, its
instruction and its tick leave of the invariant, the status and the timers. -/

namespace Sys2Proof.Machine

/-! ## A tick leaves all but the timers -/

@[simp] theorem State.tick_mem (s : State) : s.tick.mem = s.mem := rfl
@[simp] theorem State.tick_run (s : State) : s.tick.run = s.run := rfl
@[simp] theorem State.tick_status (s : State) : s.tick.status = s.status := rfl
@[simp] theorem State.tick_stackFaultSeen (s : State) : s.tick.stackFaultSeen = s.stackFaultSeen := rfl

/-! ## Every instruction answers a next state (R62, R148) -/

theorem exec_answers_next (i : Instr) (s : State) : ∃ t, exec i s = .next t := by
  cases i
  case ret =>
    simp only [exec, execRet]
    rcases s.pop_cases with ⟨_, e⟩ | ⟨_, e⟩ <;> rw [e] <;> exact ⟨_, rfl⟩
  case call nnn =>
    simp only [exec, execCall]
    rcases s.push_cases s.pc with ⟨_, e⟩ | ⟨_, e⟩ <;> rw [e] <;> exact ⟨_, rfl⟩
  case ldVxK x =>
    simp only [exec, execLdVxK]
    split <;> exact ⟨_, rfl⟩
  all_goals exact ⟨_, rfl⟩

/-- A cycle whose instruction answers `u` ends in `u` ticked. -/
theorem step_of_exec {s u : State} (h : exec (decodeWord (s.wordAt s.pc.toNat)) s.atDispatch = .next u) :
    step s = .next u.tick := by
  rw [step_eq, h, endCycle]

/-- Settles O7: the dispatch state is running, and neither an instruction nor the tick writes `run`. -/
theorem stepAlwaysAnswersNext : Obligations.StepAlwaysAnswersNext := by
  intro s
  obtain ⟨u, hu⟩ := exec_answers_next (decodeWord (s.wordAt s.pc.toNat)) s.atDispatch
  refine ⟨u.tick, step_of_exec hu, ?_⟩
  calc u.tick.run = u.run := u.tick_run
    _ = s.atDispatch.run := (exec_frame hu).run
    _ = .running := by rw [State.atDispatch_eq]

/-! ## The conditions of a cycle (R140 to R148): its instruction's, from a status that holds the fetch's wrap only -/

/-- The two stack conditions are of different instructions (R145). -/
theorem not_overflows_and_underflows (i : Instr) (s : State) : ¬(Overflows i s ∧ Underflows i s) := by
  rintro ⟨⟨⟨nnn, rfl⟩, -⟩, ⟨h, -⟩⟩
  cases h

/-- What a cycle from `s` reports in `t`, the instruction fetched being `i`. -/
structure StepConditions (i : Instr) (s t : State) : Prop where
  sovf : t.status.sovf = true ↔ Overflows i s
  sunf : t.status.sunf = true ↔ Underflows i s
  aw : t.status.aw = true ↔ 4096 ≤ s.pc.toNat + 1 ∨ AccessesAboveTop i s
  sticky : t.stackFaultSeen = true ↔ s.stackFaultSeen = true ∨ Overflows i s ∨ Underflows i s

theorem step_conditions {s t : State} (h : step s = .next t) :
    StepConditions (decodeWord (s.wordAt s.pc.toNat)) s t := by
  obtain ⟨u, hu, rfl⟩ := step_next h
  obtain ⟨sovf, sunf, aw, sticky⟩ := exec_conditions hu
  rw [State.atDispatch_eq] at sovf sunf aw sticky
  constructor
  case sovf => simpa [Overflows] using sovf
  case sunf => simpa [Underflows] using sunf
  case aw => simpa [AccessesAboveTop] using aw
  case sticky => exact sticky

/-- Settles O48: the conditions of the fetched instruction, and for the wrap the fetch. -/
theorem statusOfACycle : Obligations.StatusOfACycle := by
  rintro s t _ rfl h
  obtain ⟨sovf, sunf, aw, -⟩ := step_conditions h
  exact ⟨sovf, sunf, aw.trans (or_congr_left (by omega))⟩

/-- Never 3 and never 7: overflow and underflow exclude each other (R145). -/
theorem step_not_sovf_and_sunf {s t : State} (h : step s = .next t) :
    ¬(t.status.sovf = true ∧ t.status.sunf = true) := by
  rw [(step_conditions h).sovf, (step_conditions h).sunf]
  exact not_overflows_and_underflows _ s

/-- Settles O49: of the eight values of three bits, the two with both stack conditions do not occur. -/
theorem statusValues : Obligations.StatusValues := by
  intro s t h
  have excl := step_not_sovf_and_sunf h
  rw [State.statusValue]
  generalize t.status.sovf = o, t.status.sunf = u, t.status.aw = a at excl ⊢
  revert o u a
  decide

/-- Settles O50: the sticky bit records the two causes the cycle's stack bits report. -/
theorem stickyBitRecordsStackFaults : Obligations.StickyBitRecordsStackFaults := by
  intro s t h
  obtain ⟨sovf, sunf, -, sticky⟩ := step_conditions h
  rw [Bool.eq_iff_iff, sticky, Bool.or_eq_true, Bool.or_eq_true, sovf, sunf, or_assoc]

/-! ## The invariant and the timers -/

theorem toNat_tickTimer_le (b : Byte) : (tickTimer b).toNat ≤ 254 := by
  have := b.isLt
  rw [toNat_tickTimer]
  omega

/-- Memory stays canonical: the dispatch and the tick do not touch it. -/
theorem step_wf {s t : State} (hs : s.mem.wf) (h : step s = .next t) : t.mem.wf := by
  obtain ⟨u, hu, rfl⟩ := step_next h
  rw [State.tick_mem]
  exact exec_wf (s := s.atDispatch) (by rw [State.atDispatch_eq]; exact hs) hu

/-- Settles O51. Of the invariant, only the form of memory needs the invariant before the cycle: the status is the cycle's
own, and both timers have just been ticked. -/
theorem stepKeepsInvariant : Obligations.StepKeepsInvariant := by
  rintro s t ⟨hwf, -⟩ h
  have sticky := stickyBitRecordsStackFaults s t h
  refine ⟨step_wf hwf h, step_not_sovf_and_sunf h, ?reported, ?dt, ?st⟩
  case reported =>
    rintro (hO | hU)
    · simp [sticky, hO]
    · simp [sticky, hU]
  all_goals
    obtain ⟨u, -, rfl⟩ := step_next h
    exact toNat_tickTimer_le _

/-- Settles O52: the status is clear, memory lists nothing and the timers are 0. -/
theorem resetMeetsInvariant : Obligations.ResetMeetsInvariant :=
  ⟨⟨Memory.wf_empty, by decide, by decide, by decide, by decide⟩, rfl⟩

/-- Settles O43: an instruction either leaves a timer as the cycle found it or sets it; the tick takes one off. -/
theorem timersOverACycle : Obligations.TimersOverACycle := by
  rintro s t i hi h
  obtain ⟨u, hu, rfl⟩ := step_next h
  rw [hi] at hu
  have frame := exec_frame hu
  rw [State.atDispatch_eq] at hu frame
  rw [State.tick_eq, toNat_tickTimer, toNat_tickTimer]
  refine ⟨fun hne => ?_, ?_, fun hne => ?_, ?_⟩
  · rw [frame.dt hne]
  · rintro x rfl; cases hu; rfl
  · rw [frame.st hne]
  · rintro x rfl; cases hu; rfl

/-- Settles O5: the state step 3 starts in is the dispatch state. -/
theorem stepRunsDecoded : Obligations.StepRunsDecoded := by
  intro s i rest h
  obtain rfl : decodeWord (s.wordAt s.pc.toNat) = i := by
    simpa [decodeBytes, State.wordAt] using h
  have frame := onlyChanges_atDispatch s
  have cycle := step_eq s
  rw [State.atDispatch_eq] at frame cycle
  refine ⟨_, ?keypad, ?keys, ?run, ?status, ?pc, ?ir, frame, ?fault, ?refused, ?next⟩
  case keypad | keys | run => rfl
  case status => simp
  case pc => exact BitVec.toNat_add s.pc 2
  case ir => exact toNat_wordOfBytes _ _
  case fault => exact fun r _ => nomatch r
  case refused => exact fun r hr => by rw [cycle, hr, endCycle]
  case next =>
    intro u hu
    exact ⟨u.tick, by rw [cycle, hu, endCycle], toNat_tickTimer u.dt, toNat_tickTimer u.st, onlyChanges_tick u⟩

end Sys2Proof.Machine
end

section
/-! PROOFS. What no instruction reads (spec/10_state.md R13, R21, R22; log entries 4 and 6): the sticky bit, the AW bit, and
of `I` all but its value modulo 4096. Shading these parts before an instruction shades them after it. -/

namespace Sys2Proof.Machine

/-- The state with another `I`, another AW bit and another sticky bit. -/
def State.shade (s : State) (w : Word) (a f : Bool) : State :=
  { s with i := w, status := { s.status with aw := a }, stackFaultSeen := f }

variable (s : State) (w : Word) (a f : Bool)

/-! ## The shared operations -/

theorem State.writeV_shade (r : Reg) (b : Byte) : (s.shade w a f).writeV r b = (s.writeV r b).shade w a f := rfl

theorem State.raise_shade (c : Condition) (hc : c.isStack = true) :
    (s.shade w a f).raise c = (s.raise c).shade w a true := by
  cases c
  case addrWrap => cases hc
  all_goals simp [State.raise, State.shade, Status.report, Condition.isStack]

theorem State.noteAccess_shade (ea ea' : Nat) :
    (s.shade w a f).noteAccess ea' = (s.noteAccess ea).shade w (a || decide (4096 ≤ ea')) f := by
  rw [State.noteAccess_eq, State.noteAccess_eq]; rfl

theorem State.push_shade (p : Word) : (s.shade w a f).push p = (s.push p).map fun t => t.shade w a f := by
  unfold State.push
  split
  · rw [dif_pos ‹_›]; rfl
  · rw [dif_neg ‹_›]; rfl

theorem State.pop_shade : (s.shade w a f).pop = s.pop.map fun p => (p.1, p.2.shade w a f) := by
  unfold State.pop
  split
  · rw [dif_pos ‹_›]; rfl
  · rw [dif_neg ‹_›]; rfl

/-- A byte goes to the same place, whatever the upper bits of its address (R33). -/
theorem State.memWrite_shade {ea ea' : Nat} (h : ea' % 4096 = ea % 4096) (b : Byte) :
    (s.shade w a f).memWrite ea' b = (s.memWrite ea b).shade w (a || decide (4096 ≤ ea')) f := by
  rw [State.memWrite_eq, State.memWrite_eq, h]; rfl

theorem State.storeBytes_shade {ea ea' : Nat} (h : ea' % 4096 = ea % 4096) (bs : List Byte) :
    ∃ a', (s.shade w a f).storeBytes ea' bs = (s.storeBytes ea bs).shade w a' f := by
  induction bs generalizing s a ea ea' with
  | nil => exact ⟨a, rfl⟩
  | cons b bs ih =>
    rw [State.storeBytes, State.memWrite_shade s w a f h]
    exact ih (s.memWrite ea b) _ (by omega)

/-- A byte comes from the same place, whatever the upper bits of its address (R32). -/
theorem State.readByte_shade {ea ea' : Nat} (h : ea' % 4096 = ea % 4096) :
    (s.shade w a f).readByte ea' = s.readByte ea := by
  rw [State.readByte, h]; rfl

theorem State.loadBytes_shade {ea ea' : Nat} (h : ea' % 4096 = ea % 4096) (rs : List Reg) :
    ∃ a', (s.shade w a f).loadBytes ea' rs = (s.loadBytes ea rs).shade w a' f := by
  induction rs generalizing s a ea ea' with
  | nil => exact ⟨a, rfl⟩
  | cons r rs ih =>
    rw [State.loadBytes, State.memRead, State.noteAccess_shade s w a f ea ea', State.readByte_shade s w a f h,
      State.writeV_shade]
    exact ih ((s.noteAccess ea).writeV r (s.readByte ea)) _ (by omega)

theorem State.togglePixel_shade (row : Fin 32) (col : Fin 64) :
    (s.shade w a f).togglePixel row col = (s.togglePixel row col).shade w a f := by
  unfold State.togglePixel
  rw [show (s.shade w a f).pixel row col = s.pixel row col from rfl]
  split <;> rfl

theorem drawBit_shade (vx vy : Byte) (r : Nat) (b : Byte) (c : Nat) :
    drawBit vx vy r b (s.shade w a f) c = (drawBit vx vy r b s c).shade w a f := by
  unfold drawBit
  split
  · exact State.togglePixel_shade s w a f _ _
  · rfl

theorem drawRow_shade (vx vy : Byte) {ea ea' : Nat} (h : ea' % 4096 = ea % 4096) (r : Nat) :
    drawRow vx vy ea' (s.shade w a f) r = (drawRow vx vy ea s r).shade w (a || decide (4096 ≤ ea' + r)) f := by
  rw [drawRow, drawRow, State.memRead, State.memRead, State.noteAccess_shade s w a f (ea + r) (ea' + r),
    State.readByte_shade s w a f (ea := ea + r) (by omega)]
  exact List.foldl_hom (State.shade · w _ f) fun t c => drawBit_shade t w _ f vx vy r _ c

theorem drawRows_shade (vx vy : Byte) {ea ea' : Nat} (h : ea' % 4096 = ea % 4096) (n : Nat) :
    ∃ a', drawRows vx vy ea' n (s.shade w a f) = (drawRows vx vy ea n s).shade w a' f := by
  unfold drawRows
  induction n with
  | zero => exact ⟨a, rfl⟩
  | succ n ih =>
    obtain ⟨a', ih⟩ := ih
    simp only [List.range_succ, List.foldl_append, List.foldl_cons, List.foldl_nil, ih]
    exact ⟨_, drawRow_shade _ w a' f vx vy h n⟩

/-! ## Every instruction -/

/-- `r` answers `t` shaded, its `I` agreeing modulo 4096, and equal where it was equal before. -/
def AnswersShade (s t : State) (w : Word) (r : Result) : Prop :=
  ∃ w' a' f', r = .next (t.shade w' a' f') ∧ w'.toNat % 4096 = t.i.toNat % 4096 ∧ (w = s.i → w' = t.i)

variable {s w} {t : State}

/-- The addresses `I` names are those the other `I` names. -/
theorem effAddr_shade_mod (hw : w.toNat % 4096 = s.i.toNat % 4096) :
    (s.shade w a f).effAddr 0 % 4096 = s.effAddr 0 % 4096 := hw

theorem exec_ret_shade (h : exec .ret s = .next t) :
    ∃ f', exec .ret (s.shade w a f) = .next (t.shade w a f') := by
  simp only [exec, execRet, State.pop_shade] at h ⊢
  cases e : s.pop with
  | none => rw [e] at h; cases h; exact ⟨true, congrArg _ (s.raise_shade w a f _ rfl)⟩
  | some p => rw [e] at h; cases h; exact ⟨f, rfl⟩

theorem exec_call_shade {nnn : Addr} (h : exec (.call nnn) s = .next t) :
    ∃ f', exec (.call nnn) (s.shade w a f) = .next (t.shade w a f') := by
  simp only [exec, execCall] at h ⊢
  rw [show (s.shade w a f).pc = s.pc from rfl, State.push_shade]
  cases e : s.push s.pc with
  | none => rw [e] at h; cases h; exact ⟨true, congrArg _ (s.raise_shade w a f _ rfl)⟩
  | some p => rw [e] at h; cases h; exact ⟨f, rfl⟩

theorem exec_ldVxK_shade {x : Reg} (h : exec (.ldVxK x) s = .next t) :
    exec (.ldVxK x) (s.shade w a f) = .next (t.shade w a f) := by
  simp only [exec, execLdVxK] at h ⊢
  rw [show (s.shade w a f).lowestKey = s.lowestKey from rfl]
  cases e : s.lowestKey with
  | none => rw [e] at h; cases h; rfl
  | some k => rw [e] at h; cases h; rfl

/-- An instruction that does not write `I` uses its value modulo 4096 only. -/
theorem exec_shade_of_index_kept {i : Instr} (hi : i.writesIndex = false) (hw : w.toNat % 4096 = s.i.toNat % 4096)
    (h : exec i s = .next t) : ∃ a' f', exec i (s.shade w a f) = .next (t.shade w a' f') := by
  have address := effAddr_shade_mod a f hw
  cases i
  case ldI | ldF | addI => cases hi
  case ret => exact ⟨a, exec_ret_shade a f h⟩
  case call nnn => exact ⟨a, exec_call_shade a f h⟩
  case ldVxK x => exact ⟨a, f, exec_ldVxK_shade a f h⟩
  case drw x y n =>
    cases h
    obtain ⟨a', e⟩ := drawRows_shade (s.writeV 15 0) w a f (s.readV x) (s.readV y) address n.toNat
    exact ⟨a', f, congrArg _ e⟩
  case ldB x =>
    cases h
    obtain ⟨a', e⟩ := s.storeBytes_shade w a f address (bcdDigits (s.readV x))
    exact ⟨a', f, congrArg _ e⟩
  case storeRegs x =>
    cases h
    obtain ⟨a', e⟩ := s.storeBytes_shade w a f address ((regsUpTo x).map s.readV)
    exact ⟨a', f, congrArg _ e⟩
  case loadRegs x =>
    cases h
    obtain ⟨a', e⟩ := s.loadBytes_shade w a f address (regsUpTo x)
    exact ⟨a', f, congrArg _ e⟩
  all_goals refine ⟨a, f, ?_⟩
  case seImm | sneImm | seReg | sneReg | skp | sknp =>
    simp only [exec, execSeImm, execSneImm, execSeReg, execSneReg, execSkp, execSknp, State.skipIf_eq] at h ⊢
    cases h; rfl
  all_goals cases h; rfl

/-- The three that write `I` load it, or add to it, which keeps agreement modulo 4096 (R110 to R112). -/
theorem exec_shade {i : Instr} (hw : w.toNat % 4096 = s.i.toNat % 4096) (h : exec i s = .next t) :
    AnswersShade s t w (exec i (s.shade w a f)) := by
  by_cases hi : i.writesIndex = false
  · obtain ⟨a', f', e⟩ := exec_shade_of_index_kept a f hi hw h
    have kept : t.i = s.i := (exec_frame h).index hi
    exact ⟨w, a', f', e, by rw [kept]; exact hw, fun same => same.trans kept.symm⟩
  · cases i
    case ldI nnn => cases h; exact ⟨zextAddr nnn, a, f, rfl, rfl, fun _ => rfl⟩
    case ldF x => cases h; exact ⟨glyphAddr (s.readV x), a, f, rfl, rfl, fun _ => rfl⟩
    case addI x =>
      cases h
      refine ⟨w + zextByte (s.readV x), a, f, rfl, ?_, fun same => by rw [same]; rfl⟩
      rw [State.setI_i, toNat_add_zextByte, toNat_add_zextByte]
      omega
    all_goals exact absurd rfl hi

/-- Settles O54: no stack condition depends on `I`, so the sticky bits agree too. -/
theorem indexUpperBitsUnobservable : Obligations.IndexUpperBitsUnobservable := by
  intro i s t w hw h
  obtain ⟨w', a', f', hu, hi, -⟩ := exec_shade s.status.aw s.stackFaultSeen hw h
  refine ⟨_, hu, hi, ?_⟩
  have sticky : f' = t.stackFaultSeen :=
    Bool.eq_iff_iff.2 ((exec_conditions hu).sticky.trans (exec_conditions h).sticky.symm)
  rw [sticky]
  rfl

/-- The dispatch state of a changed state: the cycle writes `IR`, `run` and the status before it reads them (R70). -/
theorem atDispatch_of_outputs (s : State) (v : Word) (r : RunState) (st : Status) (f : Bool) :
    ({ s with ir := v, run := r, status := st, stackFaultSeen := f } : State).atDispatch =
      s.atDispatch.shade s.atDispatch.i s.atDispatch.status.aw f := by
  rw [State.atDispatch_eq, State.atDispatch_eq]
  rfl

/-- Settles O53: the two cycles execute the same word from states that differ in the sticky bit alone. -/
theorem cycleIgnoresItsOutputs : Obligations.CycleIgnoresItsOutputs := by
  intro s t v r st f h
  obtain ⟨u, hu, rfl⟩ := step_next h
  obtain ⟨w', a', f', hu', -, hi⟩ := exec_shade s.atDispatch.status.aw f rfl hu
  have aw : a' = u.status.aw := Bool.eq_iff_iff.2 ((exec_conditions hu').aw.trans (exec_conditions hu).aw.symm)
  rw [← atDispatch_of_outputs s v r st f] at hu'
  refine ⟨_, step_of_exec hu', ?_⟩
  rw [hi rfl, aw]
  rfl

end Sys2Proof.Machine
end

section
/-! PROOFS. Memory and the blocks copied to and from it (spec/20_memory.md R30 to R41, spec/43_index_and_memory.md R114 to
R116). -/

namespace Sys2Proof.Machine

/-! ## Canonical memory (log entry 17) -/

theorem readCells_of_mem {cs : List Host.Cell} (hs : cs.Pairwise fun c d => c.1 < d.1) {c : Host.Cell} (hc : c ∈ cs) :
    readCells cs c.1 = c.2 := by
  induction cs with
  | nil => cases hc
  | cons d cs ih =>
    obtain ⟨hd, hcs⟩ := List.pairwise_cons.1 hs
    rcases List.mem_cons.1 hc with rfl | hc
    · rw [readCells, if_pos rfl]
    · rw [readCells, if_neg (Nat.ne_of_lt (hd c hc)), ih hcs hc]

/-- Canonical memory lists exactly the bytes it reads that differ from their reset contents. -/
theorem Memory.mem_cells_iff {m : Memory} (h : m.wf) (c : Host.Cell) :
    c ∈ m.cells ↔ m.read c.1 = c.2 ∧ c.2 ≠ resetByte c.1 := by
  obtain ⟨rising, cell⟩ := h
  constructor
  · exact fun hc => ⟨readCells_of_mem rising hc, (cell c hc).2⟩
  · rintro ⟨hread, hne⟩
    have listed : ∃ d ∈ m.cells, d.1 = c.1 := by
      by_contra hno
      exact hne (hread.symm.trans (readCells_of_unlisted fun d hd hdc => hno ⟨d, hd, hdc⟩))
    obtain ⟨d, hd, hdc⟩ := listed
    have value : d.2 = c.2 := by rw [← readCells_of_mem rising hd, hdc]; exact hread
    rwa [← Prod.ext hdc value]

/-- Settles O10: two rising lists of the same cells are equal. -/
theorem canonicalMemoryIsUnique : Obligations.CanonicalMemoryIsUnique := by
  intro m m' h h' hread
  have irrefl : Std.Irrefl fun c d : Host.Cell => c.1 < d.1 := ⟨fun c => lt_irrefl c.1⟩
  have antisymm : Std.Antisymm fun c d : Host.Cell => c.1 < d.1 := ⟨fun _ _ hcd hdc => absurd hdc (lt_asymm hcd)⟩
  have cells : m.cells = m'.cells :=
    h.1.eq_of_mem_iff h'.1 fun c => by rw [m.mem_cells_iff h, m'.mem_cells_iff h', hread]
  exact congrArg Memory.mk cells

/-! ## A stored word is fetched (R41, R168) -/

/-- Settles O11: the store keeps `pc`, and its two bytes are those the dispatch reads there. -/
theorem nextFetchSeesStore : Obligations.NextFetchSeesStore := by
  intro s hi lo
  have pc : (s.storeBytes s.pc.toNat [hi, lo]).pc = s.pc := by rw [State.storeBytes_eq]
  have first := s.readByte_storeBytes s.pc.toNat [hi, lo] (by simp) 0 (by simp)
  have second := s.readByte_storeBytes s.pc.toNat [hi, lo] (by simp) 1 (by simp)
  calc (s.storeBytes s.pc.toNat [hi, lo]).atDispatch.ir
      = (s.storeBytes s.pc.toNat [hi, lo]).wordAt s.pc.toNat := by rw [State.atDispatch_eq, pc]
    _ = hi ++ lo := congrArg₂ wordOfBytes first second

/-! ## Block copies of registers -/

/-- Settles O34: the registers up to `x` in order, as a block store of `x + 1` bytes. -/
theorem storeRegisters : Obligations.StoreRegisters := by
  intro s x
  have length : ((regsUpTo x).map s.readV).length = x.val + 1 := by simp
  refine ⟨_, rfl, ?stored, ?others, s.storeBytes_effAddr_status length, onlyChanges_storeBytes s _ _⟩
  case stored =>
    intro k hk
    have := Fin.le_def.1 hk
    rw [s.readByte_storeBytes_effAddr _ (by omega) k.val (by omega), List.getElem_map, getElem_regsUpTo]
  case others =>
    intro a ha
    exact s.readByte_storeBytes_of_not_storedAt (by rwa [length])

/-- A block load writes registers and notes accesses. -/
theorem onlyChanges_loadBytes (s : State) (ea : Nat) (rs : List Reg) :
    OnlyChanges [.regs, .status] s (s.loadBytes ea rs) := by
  rw [State.loadBytes_eq]
  exact ((onlyChanges_regs s _).mono (by simp)).trans ((onlyChanges_status _ _).mono (by simp))

/-- Settles O35: a block load of the registers up to `x`, all different. -/
theorem loadRegisters : Obligations.LoadRegisters := by
  intro s x
  refine ⟨_, rfl, ?loaded, ?above, ?status, onlyChanges_loadBytes s _ _⟩
  case loaded =>
    intro k hk
    have index : k.val < (regsUpTo x).length := by rw [length_regsUpTo]; exact Nat.lt_succ_of_le hk
    have value := s.readV_loadBytes (s.effAddr 0) (regsUpTo x) (nodup_regsUpTo x) k.val index
    rwa [getElem_regsUpTo] at value
  case above =>
    intro k hk
    exact s.readV_loadBytes_of_not_mem _ _ _ (by rw [mem_regsUpTo]; exact not_le_of_gt hk)
  case status =>
    have last : (0 < x.val + 1 ∧ 4096 < s.i.toNat + 0 + (x.val + 1)) ↔ 4096 ≤ s.i.toNat + x.val := by omega
    rw [State.loadBytes_status, length_regsUpTo, State.effAddr, ← Bool.decide_and, decide_eq_decide.2 last]

/-- Settles O36: the load reads the bytes where the store put them. -/
theorem loadUndoesStore : Obligations.LoadUndoesStore := by
  intro s t u x h hi hmem
  obtain ⟨t', ht, stored, -, -, frame⟩ := storeRegisters s x
  obtain rfl : t' = t := Host.Outcome.next.inj (ht.symm.trans h)
  obtain ⟨w, hw, loaded, -⟩ := loadRegisters u x
  have index : t'.i = s.i := frame .index (by simp)
  refine ⟨w, hw, fun k hk => ?_⟩
  calc w.readV k = u.readByte (u.effAddr k.val) := loaded k hk
    _ = t'.readByte (s.effAddr k.val) := by rw [State.effAddr, hi, index, State.readByte, hmem]; rfl
    _ = s.readV k := stored k hk

end Sys2Proof.Machine
end

section
/-! PROOFS. Reset and the host's ports (spec/10_state.md R19, R27, spec/70_reset_and_hazards.md R161). -/

namespace Sys2Proof.Machine

/-! ## Reset -/

theorem resetByte_below_font {a : Nat} (h : a < 0x050) : resetByte a = 0 := if_pos h

theorem resetByte_above_font {a : Nat} (h : 0x0A0 ≤ a) : resetByte a = 0 := by
  have notBelow : ¬a < 0x050 := by omega
  have beyond : font.length ≤ a - 0x050 := by
    rw [show font.length = 80 by decide]
    omega
  exact (if_neg notBelow).trans (List.getD_eq_default _ _ beyond)

theorem State.reset_readByte {a : Nat} (h : a < 0x1000) : State.reset.readByte a = resetByte a := by
  rw [State.readByte, Nat.mod_eq_of_lt h]; rfl

theorem State.reset_font : (List.range 80).map (fun k => State.reset.readByte (0x050 + k)) = fontTableR43 := by
  decide

/-- Settles O12: the registers field by field, memory as its reset contents. -/
theorem resetValues : Obligations.ResetValues := by
  refine ⟨?regs, rfl, rfl, ?stack, rfl, rfl, rfl, ?keys, ?screen, rfl, rfl, by decide, ?below, ?above, State.reset_font⟩
  case regs | stack | keys => decide
  case screen => intro row col; simp [State.pixel, State.reset]
  case below => intro a h; rw [State.reset_readByte (by omega), resetByte_below_font h]
  case above => intro a h h'; rw [State.reset_readByte h', resetByte_above_font h]

/-! ## The load port -/

/-- Settles O13: the copy is the port's only effect, and the two refusals come before it. -/
theorem loadProgramCopies : Obligations.LoadProgramCopies := by
  intro s bytes
  refine ⟨fun hidle hlen => ⟨s.putBytes 0x200 bytes, ?copied, ?bytes, ?others, ?frame⟩, fun hidle hlen => ?long,
    fun hrunning => ?running⟩
  case copied => rw [loadProgram, hidle]; exact if_pos hlen
  case bytes => exact fun k hk => s.readByte_putBytes 0x200 bytes (by omega) k hk
  case others => exact fun a ha => s.readByte_putBytes_of_outside 0x200 a bytes fun k hk hak => ha ⟨k, hk, hak⟩
  case frame => rw [s.putBytes_eq]; exact onlyChanges_memory s _
  case long => rw [loadProgram, hidle]; exact if_neg (Nat.not_le.2 hlen)
  case running => rw [loadProgram, hrunning]

/-! ## The keypad mutator -/

theorem onlyChanges_setKey (s : State) (k : Key) (down : Bool) : OnlyChanges [.keypad] s (s.setKey k down) := by
  intro p hp
  cases p
  case keypad => simp at hp
  all_goals simp [Part.Same, State.readV, State.pixel, State.readByte]

theorem State.keyDown_setKey (s : State) (k j : Key) (down : Bool) :
    (s.setKey k down).keyDown j = if j = k then down else s.keyDown j := by
  have bit : (1#16 <<< k.val).getLsbD j.val = decide (j = k) := by
    rw [← BitVec.twoPow_eq, BitVec.getLsbD_twoPow]
    simp [Fin.ext_iff, eq_comm]
  unfold State.keyDown
  rw [State.setKey_keypad]
  cases down
  case false =>
    rw [if_neg Bool.false_ne_true, BitVec.getLsbD_and, BitVec.getLsbD_not, bit]
    by_cases h : j = k <;> simp [h]
  case true =>
    rw [if_pos rfl, BitVec.getLsbD_or, bit]
    by_cases h : j = k <;> simp [h]

/-- Settles O14: the key's bit is set by OR, or cleared by AND with its complement. -/
theorem keypadMutatorSetsOneKey : Obligations.KeypadMutatorSetsOneKey := fun s k j down =>
  ⟨s.keyDown_setKey k j down, onlyChanges_setKey s k down⟩

end Sys2Proof.Machine
end

section
/-! PROOFS. The call stack, the calls and returns, and the skips (spec/10_state.md R16, spec/41_control_flow.md R80 to R88,
spec/45_keypad_and_timers.md R130, R131). -/

namespace Sys2Proof.Machine

/-! ## Push and pop (R16) -/

theorem onlyChanges_stack_sp (s : State) (stack : Vector Word 16) (sp : Fin 17) :
    OnlyChanges [.stack, .sp] s { s with stack := stack, sp := sp } := by
  intro p hp
  cases p
  case stack | sp => simp at hp
  all_goals simp [Part.Same, State.readV, State.pixel, State.readByte]

theorem onlyChanges_sp (s : State) (sp : Fin 17) : OnlyChanges [.sp] s { s with sp := sp } := by
  intro p hp
  cases p
  case sp => simp at hp
  all_goals simp [Part.Same, State.readV, State.pixel, State.readByte]

theorem State.push_eq_none_iff (s : State) (w : Word) : s.push w = none ↔ s.sp.val = 16 := by
  rcases s.push_cases w with ⟨full, e⟩ | ⟨free, e⟩
  · simp [e, full]
  · simp [e, Nat.ne_of_lt free]

theorem State.pop_eq_none_iff (s : State) : s.pop = none ↔ s.sp.val = 0 := by
  rcases s.pop_cases with ⟨empty, e⟩ | ⟨held, e⟩
  · simp [e, empty]
  · simp only [e, reduceCtorEq, false_iff]; omega

/-- What a push that finds a free slot leaves. -/
theorem State.push_eq_some {s t : State} {w : Word} (h : s.push w = some t) :
    t.sp.val = s.sp.val + 1 ∧ OnlyChanges [.stack, .sp] s t ∧
      ∀ k : Fin 16, t.stack[k] = if k.val = s.sp.val then w else s.stack[k] := by
  rcases s.push_cases w with ⟨_, e⟩ | ⟨free, e⟩
  · rw [e] at h; cases h
  · obtain rfl := Option.some.inj (e.symm.trans h)
    refine ⟨rfl, onlyChanges_stack_sp s _ _, fun k => ?_⟩
    simp [Vector.getElem_set, eq_comm]

/-- What a pop that finds a return address reads and leaves. -/
theorem State.pop_eq_some {s t : State} {u : Word} (h : s.pop = some (u, t)) :
    t.sp.val + 1 = s.sp.val ∧ OnlyChanges [.sp] s t ∧ ∀ k : Fin 16, k.val + 1 = s.sp.val → u = s.stack[k] := by
  rcases s.pop_cases with ⟨_, e⟩ | ⟨held, e⟩
  · rw [e] at h; cases h
  · obtain ⟨rfl, rfl⟩ := Prod.mk.inj (Option.some.inj (e.symm.trans h))
    refine ⟨Nat.sub_add_cancel held, onlyChanges_sp s _, fun k hk => ?_⟩
    simp [← hk]

/-- Settles O15: each operation by its two cases, and its frame. -/
theorem pushAndPop : Obligations.PushAndPop := fun s w =>
  ⟨Nat.le_of_lt_succ s.sp.isLt, s.push_eq_none_iff w, s.pop_eq_none_iff, fun _ => State.push_eq_some,
    fun _ _ => State.pop_eq_some⟩

/-! ## Calls and returns (R80, R82, R141, R142) -/

theorem exec_call_of_push {s t : State} {nnn : Addr} (h : s.push s.pc = some t) :
    exec (.call nnn) s = .next (t.setPc (zextAddr nnn)) := by
  rw [exec, execCall, h]

theorem exec_call_of_full {s : State} (nnn : Addr) (h : s.sp.val = 16) :
    exec (.call nnn) s = .next (s.raise .stackOverflow) := by
  rw [exec, execCall, (s.push_eq_none_iff _).2 h]

theorem exec_ret_of_pop {s t : State} {u : Word} (h : s.pop = some (u, t)) : exec .ret s = .next (t.setPc u) := by
  rw [exec, execRet, h]

theorem exec_ret_of_empty {s : State} (h : s.sp.val = 0) : exec .ret s = .next (s.raise .stackUnderflow) := by
  rw [exec, execRet, s.pop_eq_none_iff.2 h]

/-- Settles O17: the push finds a free slot, then the jump writes `pc`. -/
theorem callPushesAndJumps : Obligations.CallPushesAndJumps := by
  intro s nnn free
  have notFull : s.push s.pc ≠ none := fun full => Nat.ne_of_lt free ((s.push_eq_none_iff s.pc).1 full)
  obtain ⟨t, ht⟩ := Option.ne_none_iff_exists'.1 notFull
  obtain ⟨sp, frame, slots⟩ := State.push_eq_some ht
  exact ⟨_, exec_call_of_push ht, toNat_zextAddr nnn, sp, slots,
    (frame.mono (by simp)).trans ((onlyChanges_pc t _).mono (by simp))⟩

/-- Settles O18: raising the condition is all that happens. -/
theorem callOnFullStackReports : Obligations.CallOnFullStackReports := fun s nnn full =>
  ⟨_, exec_call_of_full nnn full, rfl, Bool.or_true _, onlyChanges_raise s _⟩

/-- Settles O19: the pop reads the slot below, then the return writes `pc`. -/
theorem retPops : Obligations.RetPops := by
  intro s k held
  have notEmpty : s.pop ≠ none := fun empty => absurd (s.pop_eq_none_iff.1 empty) (by omega)
  obtain ⟨⟨u, t⟩, ht⟩ := Option.ne_none_iff_exists'.1 notEmpty
  obtain ⟨sp, frame, slot⟩ := State.pop_eq_some ht
  exact ⟨_, exec_ret_of_pop ht, slot k held.symm, by rw [State.setPc_sp]; omega,
    (frame.mono (by simp)).trans ((onlyChanges_pc t u).mono (by simp))⟩

/-- Settles O20: raising the condition is all that happens. -/
theorem retOnEmptyStackReports : Obligations.RetOnEmptyStackReports := fun s empty =>
  ⟨_, exec_ret_of_empty empty, rfl, Bool.or_true _, onlyChanges_raise s _⟩

/-- Settles O21: the return pops the slot the call pushed to. -/
theorem retUndoesCall : Obligations.RetUndoesCall := by
  intro s t u nnn free h hsp hslots
  obtain ⟨t', ht, -, depth, slots, -⟩ := callPushesAndJumps s nnn free
  obtain rfl : t' = t := Host.Outcome.next.inj (ht.symm.trans h)
  obtain ⟨w, hw, pc, sp, frame⟩ := retPops u ⟨s.sp.val, free⟩ (by rw [hsp, depth])
  refine ⟨w, hw, ?pc, Fin.ext sp, fun k hk => ?slot⟩
  case pc => rw [pc, hslots _ (by rw [depth]; exact Nat.lt_succ_self _), slots, if_pos rfl]
  case slot =>
    have kept : w.stack[k] = u.stack[k] := frame .stack (by simp) k
    rw [kept, hslots k (by omega), slots, if_neg (Nat.ne_of_lt hk)]

/-! ## Skips (R88) -/

theorem onlyChanges_skipIf (s : State) (c : Bool) : OnlyChanges [.pc] s (s.skipIf c) := by
  rw [State.skipIf_eq]
  exact onlyChanges_pc s _

theorem State.toNat_pc_skipIf (s : State) (c : Bool) :
    (s.skipIf c).pc.toNat = (s.pc.toNat + if c = true then 2 else 0) % 65536 := by
  rw [State.skipIf_eq, State.setPc_pc, BitVec.toNat_add]
  cases c <;> rfl

/-- A skip on a test of a condition. -/
theorem skips_iff {r : Result} {s : State} {c : Bool} {p : Prop} [Decidable p] (hr : r = .next (s.skipIf c))
    (hc : c = true ↔ p) :
    ∃ t, r = .next t ∧ OnlyChanges [.pc] s t ∧ t.pc.toNat = (s.pc.toNat + if p then 2 else 0) % 65536 :=
  ⟨_, hr, onlyChanges_skipIf s c, by simp only [State.toNat_pc_skipIf, hc]⟩

/-- A skip on a test that a condition fails. -/
theorem skips_iff_not {r : Result} {s : State} {c : Bool} {p : Prop} [Decidable p] (hr : r = .next (s.skipIf c))
    (hc : c = true ↔ ¬p) :
    ∃ t, r = .next t ∧ OnlyChanges [.pc] s t ∧ t.pc.toNat = (s.pc.toNat + if p then 0 else 2) % 65536 := by
  obtain ⟨t, ht, frame, pc⟩ := skips_iff hr hc
  exact ⟨t, ht, frame, by rw [pc, ite_not]⟩

theorem beq_iff_toNat_eq (a b : Byte) : (a == b) = true ↔ a.toNat = b.toNat := by
  rw [beq_iff_eq, BitVec.toNat_inj]

theorem bne_iff_toNat_ne (a b : Byte) : (a != b) = true ↔ ¬a.toNat = b.toNat := by
  rw [bne_iff_ne, ne_eq, BitVec.toNat_inj]

/-- Settles O22: each is a skip on a comparison of two bytes. -/
theorem registerSkips : Obligations.RegisterSkips := fun _ _ _ _ =>
  ⟨skips_iff rfl (beq_iff_toNat_eq _ _), skips_iff_not rfl (bne_iff_toNat_ne _ _),
    skips_iff rfl (beq_iff_toNat_eq _ _), skips_iff_not rfl (bne_iff_toNat_ne _ _)⟩

theorem toNat_lowNibble (b : Byte) : (lowNibble b).toNat = b.toNat % 16 := by
  simp [lowNibble, BitVec.extractLsb'_toNat]

theorem keyOf_eq {b : Byte} {k : Key} (h : b.toNat % 16 = k.val) : keyOf b = k :=
  Fin.ext ((toNat_lowNibble b).trans h)

/-- Settles O23: each is a skip on the key the low nibble names. -/
theorem keypadSkips : Obligations.KeypadSkips := by
  intro s x k hk
  rw [← keyOf_eq hk]
  exact ⟨skips_iff rfl Iff.rfl, skips_iff_not rfl (by rw [Bool.not_eq_true', Bool.not_eq_true])⟩

end Sys2Proof.Machine
end

section
/-! PROOFS. The 8-bit ALU, the random byte and the register transfers that are one write of a register or a timer
(spec/42_load_and_alu.md R91 to R103, spec/43_index_and_memory.md R112, spec/45_keypad_and_timers.md R132 to R135). -/

namespace Sys2Proof.Machine

/-! ## Results without a flag (D18) -/

/-- Settles O25: one register write, of the 8-bit sum. -/
theorem addImmediate : Obligations.AddImmediate := fun s x kk =>
  ⟨_, rfl, by rw [s.readV_writeV_same]; exact BitVec.toNat_add _ _, regsSameExcept_writeV s x _, onlyChanges_writeV s x _⟩

/-- Settles O26: each is one register write, of a value given bit by bit. -/
theorem copyAndLogic : Obligations.CopyAndLogic := by
  intro s x y
  have frame (b : Byte) : RegsSameExcept [x] s (s.writeV x b) ∧ OnlyChanges [.regs] s (s.writeV x b) :=
    ⟨regsSameExcept_writeV s x b, onlyChanges_writeV s x b⟩
  refine ⟨⟨_, rfl, s.readV_writeV_same x _, frame _⟩, ⟨_, rfl, fun j => ?or, frame _⟩, ⟨_, rfl, fun j => ?and, frame _⟩,
    ⟨_, rfl, fun j => ?xor, frame _⟩⟩
  case or => rw [s.readV_writeV_same, BitVec.getLsbD_or]
  case and => rw [s.readV_writeV_same, BitVec.getLsbD_and]
  case xor => rw [s.readV_writeV_same, BitVec.getLsbD_xor, Bool.bne_eq_xor]

theorem onlyChanges_rndConsumed (s : State) : OnlyChanges [.random] s s.rndConsumed := by
  intro p hp
  cases p
  case random => simp at hp
  all_goals simp [Part.Same]

/-- The byte of a draw is the next supplied one, or the free one where none is left (R25, log entry 1). -/
theorem State.rndByte_cases (s : State) :
    s.rndSupply = s.rndByte :: s.rndConsumed.rndSupply ∨
      s.rndSupply = [] ∧ s.rndConsumed.rndSupply = [] ∧ s.rndByte = Config.rndByte s.rndDrawn := by
  rw [State.rndByte, State.rndConsumed_rndSupply]
  cases s.rndSupply with
  | nil => exact .inr ⟨rfl, rfl, rfl⟩
  | cons b bs => exact .inl rfl

/-- Settles O30: consulting the source touches no register, then the masked byte is one register write. -/
theorem randomByteMasked : Obligations.RandomByteMasked := by
  intro s x kk
  have consumed := onlyChanges_rndConsumed s
  have written := onlyChanges_writeV s.rndConsumed x (s.rndByte &&& kk)
  exact ⟨_, s.rndByte, rfl, fun j => by rw [State.readV_writeV_same, BitVec.getLsbD_and], s.rndByte_cases, rfl,
    regsSameExcept_writeV s.rndConsumed x _, (consumed.mono (by simp)).trans (written.mono (by simp))⟩

/-! ## Results with a flag (R103, D12) -/

theorem regsSameExcept_writeWithFlag (s : State) (x : Reg) (b : Byte) (f : Bool) :
    RegsSameExcept [x, 15] s (s.writeWithFlag x b f) := by
  intro r hr
  rw [List.mem_cons, List.mem_singleton, not_or] at hr
  rw [s.readV_writeWithFlag, if_neg hr.2, if_neg hr.1]

theorem onlyChanges_writeWithFlag (s : State) (x : Reg) (b : Byte) (f : Bool) :
    OnlyChanges [.regs] s (s.writeWithFlag x b f) :=
  onlyChanges_regs s _

theorem State.readV_writeWithFlag_result (s : State) {x : Reg} (hx : x ≠ 15) (b : Byte) (f : Bool) :
    (s.writeWithFlag x b f).readV x = b := by
  rw [s.readV_writeWithFlag, if_neg hx, if_pos rfl]

theorem State.toNat_readV_writeWithFlag_flag (s : State) (x : Reg) (b : Byte) (f : Bool) :
    ((s.writeWithFlag x b f).readV 15).toNat = f.toNat := by
  rw [s.readV_writeWithFlag, if_pos rfl]
  cases f <;> rfl

/-- A result and a flag, given as numbers, are what an instruction that writes both leaves. -/
theorem writesWithFlag {r : Result} {s : State} {x : Reg} {b : Byte} {f : Bool} {m n : Nat}
    (hr : r = .next (s.writeWithFlag x b f)) (hb : b.toNat = m) (hf : f.toNat = n) :
    ∃ t, r = .next t ∧ (x ≠ 15 → (t.readV x).toNat = m) ∧ (t.readV 15).toNat = n ∧
      RegsSameExcept [x, 15] s t ∧ OnlyChanges [.regs] s t :=
  ⟨_, hr, fun hx => by rw [s.readV_writeWithFlag_result hx, hb], by rw [s.toNat_readV_writeWithFlag_flag, hf],
    regsSameExcept_writeWithFlag s x b f, onlyChanges_writeWithFlag s x b f⟩

theorem toNat_decide (p : Prop) [Decidable p] : (decide p).toNat = if p then 1 else 0 := by
  by_cases h : p <;> simp [h]

theorem toNat_sub_byte (a b : Byte) : (a - b).toNat = (a.toNat + 256 - b.toNat) % 256 := by
  rw [BitVec.toNat_sub]
  have := b.isLt
  congr 1
  omega

/-- Settles O27: the 8-bit sum, and the carry of the exact one. -/
theorem addWithCarryFlag : Obligations.AddWithCarryFlag := fun _ _ _ =>
  writesWithFlag rfl (BitVec.toNat_add _ _) (toNat_decide _)

/-- Settles O28: the same subtraction, its operands exchanged. -/
theorem subtractWithNotBorrowFlag : Obligations.SubtractWithNotBorrowFlag := fun _ _ _ =>
  ⟨writesWithFlag rfl (toNat_sub_byte _ _) (toNat_decide _), writesWithFlag rfl (toNat_sub_byte _ _) (toNat_decide _)⟩

theorem toNat_shiftOutRight (a : Byte) : (shiftOutRight a).toNat = a.toNat % 2 := by
  rw [shiftOutRight, BitVec.getLsbD, Nat.toNat_testBit, Nat.pow_zero, Nat.div_one]

theorem toNat_shiftOutLeft (a : Byte) : (shiftOutLeft a).toNat = a.toNat / 128 := by
  have := a.isLt
  rw [shiftOutLeft, BitVec.getLsbD, Nat.toNat_testBit]
  omega

theorem toNat_byte_shiftRight (a : Byte) : (a >>> 1).toNat = a.toNat / 2 := by
  rw [BitVec.toNat_ushiftRight, Nat.shiftRight_eq_div_pow]

theorem toNat_byte_shiftLeft (a : Byte) : (a <<< 1).toNat = 2 * a.toNat % 256 := by
  rw [BitVec.toNat_shiftLeft, Nat.shiftLeft_eq, Nat.mul_comm]

/-- Settles O29: half or twice the value, and the bit that leaves it. -/
theorem shiftsCaptureBitOut : Obligations.ShiftsCaptureBitOut := fun _ _ _ =>
  ⟨writesWithFlag rfl (toNat_byte_shiftRight _) (toNat_shiftOutRight _),
    writesWithFlag rfl (toNat_byte_shiftLeft _) (toNat_shiftOutLeft _)⟩

/-! ## The glyph address (R112) -/

/-- The last glyph is at 0x09B, which 16 bits hold. -/
theorem toNat_glyphAddr (b : Byte) : (glyphAddr b).toNat = 0x050 + 5 * (b.toNat % 16) := by
  rw [glyphAddr, toNat_lowNibble, BitVec.toNat_ofNat]
  exact Nat.mod_eq_of_lt (by show 80 + 5 * (b.toNat % 16) < 65536; omega)

/-- Settles O32: one write of `I`, of the glyph's address. -/
theorem glyphAddress : Obligations.GlyphAddress := fun s _ =>
  ⟨_, rfl, toNat_glyphAddr _, onlyChanges_index s _⟩

/-! ## Keys and timers (R132 to R135) -/

/-- Settles O42: each is one write of a register or a timer, of a value read before it. -/
theorem timerTransfers : Obligations.TimerTransfers := fun s x =>
  ⟨⟨_, rfl, s.readV_writeV_same x s.dt, regsSameExcept_writeV s x _, onlyChanges_writeV s x _⟩,
    ⟨_, rfl, rfl, onlyChanges_delay s _⟩, ⟨_, rfl, rfl, onlyChanges_sound s _⟩⟩

theorem exec_ldVxK_of_down {s : State} {k : Key} (x : Reg) (h : s.lowestKey = some k) :
    exec (.ldVxK x) s = .next (s.writeV x (BitVec.ofNat 8 k.val)) := by
  rw [exec, execLdVxK, h]

theorem exec_ldVxK_of_up {s : State} (x : Reg) (h : ∀ k, s.keyDown k = false) :
    exec (.ldVxK x) s = .next s.rollBackPc := by
  rw [exec, execLdVxK, s.lowestKey_eq_none.2 h]

/-- Settles O40: the lowest key down is the one stored. -/
theorem waitForKeyStoresLowest : Obligations.WaitForKeyStoresLowest := by
  intro s x k down lower
  have stored : (BitVec.ofNat 8 k.val).toNat = k.val :=
    (BitVec.toNat_ofNat k.val 8).trans (Nat.mod_eq_of_lt (k.isLt.trans (by decide)))
  exact ⟨_, exec_ldVxK_of_down x ((s.lowestKey_eq_some k).2 ⟨down, lower⟩), by rw [s.readV_writeV_same, stored],
    regsSameExcept_writeV s x _, onlyChanges_writeV s x _⟩

/-- The roll-back is the advance undone (R132). -/
theorem State.rollBackPc_of_advanced {s : State} {p : Word} (h : s.pc = p + 2) : s.rollBackPc.pc = p := by
  rw [State.rollBackPc, State.setPc_pc, h, BitVec.add_sub_cancel]

/-- A frame loses a part that turns out to read the same. -/
theorem OnlyChanges.of_same {ps qs : List Part} {s t : State} (p : Part) (h : OnlyChanges ps s t) (hp : p.Same s t)
    (hs : ps ⊆ p :: qs) : OnlyChanges qs s t := by
  intro q hq
  by_cases e : q = p
  · rw [e]; exact hp
  · exact h q fun hq' => (List.mem_cons.1 (hs hq')).elim e hq

/-- Settles O41: within the cycle the roll-back undoes the advance of the dispatch, so `pc` is out of the frame. -/
theorem waitForKeyWaits : Obligations.WaitForKeyWaits := by
  refine ⟨fun s x up => ⟨_, exec_ldVxK_of_up x up, ?rolled, onlyChanges_pc s _⟩, fun s x hi hkeys => ?cycle⟩
  case rolled =>
    rw [State.rollBackPc, State.setPc_pc, BitVec.toNat_sub, Nat.add_comm]; rfl
  case cycle =>
    have up : ∀ k, s.atDispatch.keyDown k = false := by
      intro k
      rw [State.atDispatch_eq, State.keyDown, hkeys]
      exact BitVec.getLsbD_zero
    have pc : s.atDispatch.rollBackPc.tick.pc = s.pc := State.rollBackPc_of_advanced (by rw [State.atDispatch_eq])
    have advanced := onlyChanges_atDispatch s
    have rolled := onlyChanges_pc s.atDispatch (s.atDispatch.pc - 2)
    have ticked := onlyChanges_tick s.atDispatch.rollBackPc
    have frame : OnlyChanges [.keypad, .keySchedule, .run, .status, .pc, .ir, .delay, .sound] s
        s.atDispatch.rollBackPc.tick :=
      ((advanced.mono (by simp)).trans (rolled.mono (by simp))).trans (ticked.mono (by simp))
    refine ⟨_, step_of_exec (by rw [hi]; exact exec_ldVxK_of_up x up), pc, ?dt, ?st, frame.of_same .pc pc (by simp)⟩
    case dt => rw [State.tick_eq, toNat_tickTimer, State.atDispatch_eq]; rfl
    case st => rw [State.tick_eq, toNat_tickTimer, State.atDispatch_eq]; rfl

end Sys2Proof.Machine
end

section
/-! PROOFS. The display (spec/44_display.md R120 to R124), from the cells a drawing toggles (`Toggles`). -/

namespace Sys2Proof

/-- Bits 11 to 4 of a word of family 0 are not examined (R55). -/
theorem decodeWord_wordXYN_cls (p q : Nibble) : decodeWord (wordXYN 0x0 p q 0x0) = .cls := by
  rw [decodeWord_of_opOf_0 (opOf_wordXYN _ _ _ _), decodeFamily0, nOf_wordXYN]; rfl

end Sys2Proof

namespace Sys2Proof.Machine

/-- Settles O37: the clear is one write of the framebuffer. -/
theorem clearScreen : Obligations.ClearScreen := fun s p q =>
  ⟨decodeWord_wordXYN_cls p q, _, rfl, s.pixel_clearScreen, onlyChanges_screen s _⟩

/-! ## The drawing of `Dxyn` -/

/-- The state `Dxyn` answers (R121): VF is cleared, then the rows are drawn at the origin read before. -/
def State.drawn (s : State) (x y : Reg) (n : Nibble) : State :=
  drawRows (s.readV x) (s.readV y) (s.effAddr 0) n.toNat (s.writeV 15 0)

theorem exec_drw (x y : Reg) (n : Nibble) (s : State) : exec (.drw x y n) s = .next (s.drawn x y n) := rfl

theorem pixelRow_eq_iff (vy : Byte) (r : Nat) (row : Fin 32) : pixelRow vy r = row ↔ (vy.toNat + r) % 32 = row.val :=
  Fin.ext_iff

theorem pixelCol_eq_iff (vx : Byte) (c : Nat) (col : Fin 64) : pixelCol vx c = col ↔ (vx.toNat + c) % 64 = col.val :=
  Fin.ext_iff

/-- `Dxyn` toggles the cells its sprite covers, from the state with VF cleared. -/
theorem State.drawn_toggles (s : State) (x y : Reg) (n : Nibble) :
    Toggles (SpriteCovers s (s.readV x) (s.readV y) n.toNat) (s.writeV 15 0) (s.drawn x y n) := by
  have rows := drawRows_toggles (s.readV x) (s.readV y) (s.effAddr 0) n.toNat (s.writeV 15 0)
    (n.isLt.trans (by decide))
  simp only [pixelRow_eq_iff, pixelCol_eq_iff] at rows
  exact rows

theorem State.drawn_status (s : State) (x y : Reg) (n : Nibble) :
    (s.drawn x y n).status =
      ⟨s.status.sovf, s.status.sunf, s.status.aw || decide (0 < n.toNat ∧ 4096 ≤ s.i.toNat + n.toNat - 1)⟩ := by
  have last : (0 < n.toNat ∧ 4096 < s.i.toNat + 0 + n.toNat) ↔ (0 < n.toNat ∧ 4096 ≤ s.i.toNat + n.toNat - 1) := by omega
  rw [State.drawn, drawRows_status, State.writeV_status, State.effAddr, ← Bool.decide_and, decide_eq_decide.2 last]

theorem onlyChanges_drawn (s : State) (x y : Reg) (n : Nibble) :
    OnlyChanges [.regs, .screen, .status] s (s.drawn x y n) := by
  rw [(s.drawn_toggles x y n).rest]
  exact ((onlyChanges_regs s _).mono (by simp)).trans
    (((onlyChanges_screen _ _).mono (by simp)).trans ((onlyChanges_status _ _).mono (by simp)))

/-- Settles O38: VF is 0 before the rows are drawn, so it ends as 1 exactly on a collision. -/
theorem drawXorsSprite : Obligations.DrawXorsSprite := by
  intro s x y n
  have toggles := s.drawn_toggles x y n
  refine ⟨_, exec_drw x y n s, fun row col => ⟨toggles.covered row col, toggles.uncovered row col⟩,
    ⟨toggles.collision, fun none => ?noCollision⟩, s.drawn_status x y n, ?otherRegs, onlyChanges_drawn s x y n⟩
  case noCollision => rw [toggles.noCollision none, s.readV_writeV_same]
  case otherRegs =>
    intro r hr
    rw [List.mem_singleton] at hr
    rw [toggles.otherRegs r hr, State.readV_writeV, if_neg hr]

/-- The cells a sprite covers depend on memory and `I` only. -/
theorem spriteCovers_congr {s u : State} (hbyte : ∀ a, u.readByte a = s.readByte a) (hi : u.i = s.i) (vx vy : Byte)
    (n : Nat) (row : Fin 32) (col : Fin 64) : SpriteCovers u vx vy n row col ↔ SpriteCovers s vx vy n row col := by
  simp only [SpriteCovers, State.effAddr, hbyte, hi]

/-- Settles O39: both drawings toggle the same cells, and a cell the first turned on is on before the second. -/
theorem drawTwiceRestores : Obligations.DrawTwiceRestores := by
  intro s t u x y n h hpixel hbyte hi hx hy
  obtain rfl : s.drawn x y n = t := Host.Outcome.next.inj h
  have frame := onlyChanges_drawn s x y n
  have first := s.drawn_toggles x y n
  have second := u.drawn_toggles x y n
  have cover : ∀ row col, SpriteCovers u (u.readV x) (u.readV y) n.toNat row col ↔
      SpriteCovers s (s.readV x) (s.readV y) n.toNat row col := by
    rw [hx, hy]
    exact spriteCovers_congr (fun a => (hbyte a).trans (frame .memory (by simp) a))
      (hi.trans (frame .index (by simp))) _ _ _
  refine ⟨_, exec_drw x y n u, fun row col => ?restored, ?flag⟩
  case restored =>
    by_cases hc : SpriteCovers s (s.readV x) (s.readV y) n.toNat row col
    · rw [second.covered row col ((cover row col).2 hc), State.pixel_writeV, hpixel, first.covered row col hc,
        State.pixel_writeV, Bool.not_not]
    · rw [second.uncovered row col (mt (cover row col).1 hc), State.pixel_writeV, hpixel, first.uncovered row col hc,
        State.pixel_writeV]
  case flag =>
    rintro ⟨row, col, off, on⟩
    have covered : SpriteCovers s (s.readV x) (s.readV y) n.toNat row col := by
      by_contra hc
      rw [first.uncovered row col hc, State.pixel_writeV, off] at on
      exact Bool.false_ne_true on
    exact second.collision ⟨row, col, (cover row col).2 covered, (hpixel row col).trans on⟩

end Sys2Proof.Machine
end

section
/-! PROOFS. Which instructions write which part of the state (spec/10_state.md R12 to R20), from the frame of every
instruction (`ExecFrame`). -/

namespace Sys2Proof.Machine

theorem flagByte_eq_zero_or_one (f : Bool) : flagByte f = 0 ∨ flagByte f = 1 := by
  cases f
  · exact .inl rfl
  · exact .inr rfl

theorem State.drawn_flag (s : State) (x y : Reg) (n : Nibble) :
    (s.drawn x y n).readV 15 = 0 ∨ (s.drawn x y n).readV 15 = 1 := by
  have toggles := s.drawn_toggles x y n
  by_cases collision : ∃ row col, SpriteCovers s (s.readV x) (s.readV y) n.toNat row col ∧
      (s.writeV 15 0).pixel row col = true
  · exact .inr (toggles.collision collision)
  · exact .inl ((toggles.noCollision collision).trans (s.readV_writeV_same 15 0))

/-- The five ALU flag writers end in a write with flag, `Dxyn` in a drawing (R12). -/
theorem exec_writes_flag {i : Instr} {s t : State} (hf : i.writesFlag = true) (h : exec i s = .next t) :
    t.readV 15 = 0 ∨ t.readV 15 = 1 := by
  cases i
  case drw x y n => cases h; exact s.drawn_flag x y n
  case addReg | subReg | subnReg | shr | shl =>
    cases h
    rw [State.readV_writeWithFlag, if_pos rfl]
    exact flagByte_eq_zero_or_one _
  all_goals cases hf

/-- Settles O44: the flag writers by their last write, the others by the frame. -/
theorem flagWriters : Obligations.FlagWriters := fun _ _ _ h =>
  ⟨fun hf => exec_writes_flag hf h, (exec_frame h).flag⟩

/-- Settles O45: the frame keeps the framebuffer and memory whole, so each cell and byte. -/
theorem indexScreenMemoryWriters : Obligations.IndexScreenMemoryWriters := by
  intro i s t h
  have frame := exec_frame h
  refine ⟨frame.index, fun hs row col => ?screen, fun hm a => ?memory⟩
  case screen => rw [State.pixel, frame.fb hs, State.pixel]
  case memory => rw [State.readByte, frame.mem hm, State.readByte]

/-- Settles O46: the frame keeps the stack whole, so each slot. -/
theorem stackAndPcWriters : Obligations.StackAndPcWriters := by
  intro i s t h
  have frame := exec_frame h
  exact ⟨fun hne k => by rw [frame.stack hne], frame.sp, frame.pc⟩

/-- Settles O47: all are parts of the frame of every instruction. -/
theorem neverWrittenByInstructions : Obligations.NeverWrittenByInstructions := by
  intro i s t h
  have frame := exec_frame h
  exact ⟨frame.keypad, frame.ir, frame.run, frame.keySchedule, frame.random⟩

end Sys2Proof.Machine
end
